-- ==== Sys2Proof/Word.lean ====
section
/-! DEFINITION. The 32-bit word and its two readings (spec `00_scope.md` rule R12). -/

namespace Sys2Proof

/-- A 32-bit pattern: a register's contents, a data word or an instruction word (R8, R11). -/
abbrev Word := BitVec 32

/-- `U(v)` of R12: the unsigned reading, in `[0, 2^32)`. -/
abbrev U (v : Word) : Nat := v.toNat

/-- `S(v)` of R12: the two's-complement reading, in `[-2^31, 2^31)`. -/
abbrev S (v : Word) : Int := v.toInt

/-- `wrap32(n)` of R12: the pattern whose unsigned reading is `n mod 2^32`. -/
abbrev wrap32 (n : Int) : Word := BitVec.ofInt 32 n

end Sys2Proof
end

