-- ==== Sys2Proof/Config.lean ====
section
/-! DEFINITION. The three parameters the spec leaves to the implementation (`00_scope.md` rule R10). -/

namespace Sys2Proof

/-- `DIV_OVERFLOW` (decision D5, R80): what `div` does for `-2^31 / -1`. -/
inductive DivOverflow where
  | wrap
  | fault
deriving DecidableEq, Repr

/-- `TEXT_RADIX` (decision D20, R61): the radix of numbers in disassembly text. -/
inductive TextRadix where
  | decimal
  | hexadecimal
deriving DecidableEq, Repr

/-- The parameters a launch takes as arguments (R10); constant during a run. -/
structure Config where
  divOverflow : DivOverflow
  /-- `EAGER_R_VALIDATION` (decision D11, R115): whether launch scans for illegal opcode-0 words. -/
  eagerRValidation : Bool
  textRadix : TextRadix
deriving DecidableEq, Repr

/-- The spec's defaults (R10). -/
def Config.default : Config :=
  { divOverflow := .wrap, eagerRValidation := true, textRadix := .decimal }

end Sys2Proof
end

