-- ==== Sys2Proof/Syntax.lean ====
section
/-! DEFINITION. The 16 instructions (spec `30_encoding.md` rules R49 to R56) and the program image (R99). -/

namespace Sys2Proof

/-- A 5-bit register field `rs`, `rt` or `rd` (R50, R51). -/
abbrev RegField := BitVec 5

/-- The 16-bit field `imm` (R51). -/
abbrev ImmField := BitVec 16

/-- The 26-bit field `address` (R52). -/
abbrev AddressField := BitVec 26

/-- The decoded instruction: one constructor per row of `opcode_table.json`, its operands in the order of the
assembler syntax (R61). The ignored fields of R57 are no operands; log entry 10. -/
inductive Instr where
  | addu (rd rs rt : RegField)
  | and (rd rs rt : RegField)
  | or (rd rs rt : RegField)
  | slt (rd rs rt : RegField)
  | subu (rd rs rt : RegField)
  | div (rs rt : RegField)
  | mult (rs rt : RegField)
  | mfhi (rd : RegField)
  | mflo (rd : RegField)
  | syscall
  | addiu (rt rs : RegField) (imm : ImmField)
  | beq (rs rt : RegField) (imm : ImmField)
  | bne (rs rt : RegField) (imm : ImmField)
  | j (address : AddressField)
  | lw (rt rs : RegField) (imm : ImmField)
  | sw (rt rs : RegField) (imm : ImmField)
deriving DecidableEq, Repr

/-- The program image the host supplies before launch (R99). -/
structure ProgramImage where
  numInstructions : Nat
  numWords : Nat
  instructionWords : List Word
  dataWords : List Word
deriving DecidableEq, Repr

/-- The image of no instruction and no data word, which R9 calls legal. -/
def ProgramImage.empty : ProgramImage :=
  { numInstructions := 0, numWords := 0, instructionWords := [], dataWords := [] }

end Sys2Proof
end

