-- ==== Sys2Proof/Decode.lean ====
section
/-! DEFINITION. Field extraction, the decoder, the opcode table and the encoder (spec `30_encoding.md` rules R48 to R60). -/

namespace Sys2Proof

/-- `opcode = W[31:26]` (R50 to R52). -/
def opcodeOf (w : Word) : BitVec 6 := w.extractLsb' 26 6

/-- `rs = W[25:21]` (R50, R51). -/
def rsOf (w : Word) : RegField := w.extractLsb' 21 5

/-- `rt = W[20:16]` (R50, R51). -/
def rtOf (w : Word) : RegField := w.extractLsb' 16 5

/-- `rd = W[15:11]` (R50). -/
def rdOf (w : Word) : RegField := w.extractLsb' 11 5

/-- `shamt = W[10:6]` (R50): extracted, used by no instruction (R4). -/
def shamtOf (w : Word) : BitVec 5 := w.extractLsb' 6 5

/-- `funct = W[5:0]` (R50); a selector only when `opcode = 0` (R58). -/
def functOf (w : Word) : BitVec 6 := w.extractLsb' 0 6

/-- `imm = W[15:0]` (R51). -/
def immOf (w : Word) : ImmField := w.extractLsb' 0 16

/-- `address = W[25:0]` (R52). -/
def addressOf (w : Word) : AddressField := w.extractLsb' 0 26

/-- Why a word is no instruction (R59). -/
inductive DecodeReject where
  /-- `opcode = 0` and the funct selects none of the R-format instructions. -/
  | unsupportedFunct (funct : BitVec 6)
  /-- The opcode is none of the seven of R49. -/
  | unsupportedOpcode (opcode : BitVec 6)
deriving DecidableEq, Repr

/-- The R-format half of R56: funct selects among the words of opcode 0. -/
def decodeR (w : Word) : Except DecodeReject Instr :=
  match functOf w with
  | 0x21#6 => .ok (.addu (rdOf w) (rsOf w) (rtOf w))
  | 0x24#6 => .ok (.and (rdOf w) (rsOf w) (rtOf w))
  | 0x25#6 => .ok (.or (rdOf w) (rsOf w) (rtOf w))
  | 0x2A#6 => .ok (.slt (rdOf w) (rsOf w) (rtOf w))
  | 0x23#6 => .ok (.subu (rdOf w) (rsOf w) (rtOf w))
  | 0x1A#6 => .ok (.div (rsOf w) (rtOf w))
  | 0x18#6 => .ok (.mult (rsOf w) (rtOf w))
  | 0x10#6 => .ok (.mfhi (rdOf w))
  | 0x12#6 => .ok (.mflo (rdOf w))
  | 0x0C#6 => .ok .syscall
  | f => .error (.unsupportedFunct f)

/-- The decoder (R49, R56, R59): total on 32-bit words, rejecting by name. -/
def decode (w : Word) : Except DecodeReject Instr :=
  match opcodeOf w with
  | 0x00#6 => decodeR w
  | 0x02#6 => .ok (.j (addressOf w))
  | 0x04#6 => .ok (.beq (rsOf w) (rtOf w) (immOf w))
  | 0x05#6 => .ok (.bne (rsOf w) (rtOf w) (immOf w))
  | 0x09#6 => .ok (.addiu (rtOf w) (rsOf w) (immOf w))
  | 0x23#6 => .ok (.lw (rtOf w) (rsOf w) (immOf w))
  | 0x2B#6 => .ok (.sw (rtOf w) (rsOf w) (immOf w))
  | op => .error (.unsupportedOpcode op)

/-- The word is one the decoder takes (the validity check of R67). -/
def supported (w : Word) : Bool := (decode w).isOk

/-- A word the launch scan of R115 rejects: opcode 0 with an unsupported funct. -/
def illegalRWord (w : Word) : Bool := opcodeOf w == 0 && !supported w

/-- One row of `opcode_table.json`: `W` is the row's instruction exactly when `W & mask = pattern` (R56). -/
structure Row where
  mnemonic : String
  mask : Word
  pattern : Word
deriving DecidableEq, Repr

/-- The R-format rows of R56. -/
def opcodeRowsR : List Row :=
  [⟨"addu", 0xFC00003F#32, 0x00000021#32⟩, ⟨"and", 0xFC00003F#32, 0x00000024#32⟩,
   ⟨"or", 0xFC00003F#32, 0x00000025#32⟩, ⟨"slt", 0xFC00003F#32, 0x0000002A#32⟩,
   ⟨"subu", 0xFC00003F#32, 0x00000023#32⟩, ⟨"div", 0xFC00003F#32, 0x0000001A#32⟩,
   ⟨"mult", 0xFC00003F#32, 0x00000018#32⟩, ⟨"mfhi", 0xFC00003F#32, 0x00000010#32⟩,
   ⟨"mflo", 0xFC00003F#32, 0x00000012#32⟩, ⟨"syscall", 0xFC00003F#32, 0x0000000C#32⟩]

/-- The I-format and J-format rows of R56. -/
def opcodeRowsIJ : List Row :=
  [⟨"addiu", 0xFC000000#32, 0x24000000#32⟩, ⟨"beq", 0xFC000000#32, 0x10000000#32⟩,
   ⟨"bne", 0xFC000000#32, 0x14000000#32⟩, ⟨"j", 0xFC000000#32, 0x08000000#32⟩,
   ⟨"lw", 0xFC000000#32, 0x8C000000#32⟩, ⟨"sw", 0xFC000000#32, 0xAC000000#32⟩]

/-- The opcode map of R56, 16 rows. -/
def opcodeTable : List Row := opcodeRowsR ++ opcodeRowsIJ

/-- The mnemonic of an instruction, as the table spells it. -/
def mnemonicOf : Instr → String
  | .addu _ _ _ => "addu"
  | .and _ _ _ => "and"
  | .or _ _ _ => "or"
  | .slt _ _ _ => "slt"
  | .subu _ _ _ => "subu"
  | .div _ _ => "div"
  | .mult _ _ => "mult"
  | .mfhi _ => "mfhi"
  | .mflo _ => "mflo"
  | .syscall => "syscall"
  | .addiu _ _ _ => "addiu"
  | .beq _ _ _ => "beq"
  | .bne _ _ _ => "bne"
  | .j _ => "j"
  | .lw _ _ _ => "lw"
  | .sw _ _ _ => "sw"

/-- A word of the R-format layout (R50). -/
def wordR (rs rt rd : RegField) (shamt : BitVec 5) (funct : BitVec 6) : Word :=
  0#6 ++ rs ++ rt ++ rd ++ shamt ++ funct

/-- A word of the I-format layout (R51). -/
def wordI (opcode : BitVec 6) (rs rt : RegField) (imm : ImmField) : Word := opcode ++ rs ++ rt ++ imm

/-- A word of the J-format layout (R52). -/
def wordJ (opcode : BitVec 6) (address : AddressField) : Word := opcode ++ address

/-- The encoder: the canonical word of an instruction, its ignored fields (R57) zero. -/
def encode : Instr → Word
  | .addu rd rs rt => wordR rs rt rd 0 0x21
  | .and rd rs rt => wordR rs rt rd 0 0x24
  | .or rd rs rt => wordR rs rt rd 0 0x25
  | .slt rd rs rt => wordR rs rt rd 0 0x2A
  | .subu rd rs rt => wordR rs rt rd 0 0x23
  | .div rs rt => wordR rs rt 0 0 0x1A
  | .mult rs rt => wordR rs rt 0 0 0x18
  | .mfhi rd => wordR 0 0 rd 0 0x10
  | .mflo rd => wordR 0 0 rd 0 0x12
  | .syscall => wordR 0 0 0 0 0x0C
  | .addiu rt rs imm => wordI 0x09 rs rt imm
  | .beq rs rt imm => wordI 0x04 rs rt imm
  | .bne rs rt imm => wordI 0x05 rs rt imm
  | .j address => wordJ 0x02 address
  | .lw rt rs imm => wordI 0x23 rs rt imm
  | .sw rt rs imm => wordI 0x2B rs rt imm

/-- The bits of an instruction's word that R57 does not ignore: its selectors and its operand fields. -/
def usedBits : Instr → Word
  | .addu _ _ _ | .and _ _ _ | .or _ _ _ | .slt _ _ _ | .subu _ _ _ => 0xFFFFF83F#32
  | .div _ _ | .mult _ _ => 0xFFFF003F#32
  | .mfhi _ | .mflo _ => 0xFC00F83F#32
  | .syscall => 0xFC00003F#32
  | .addiu _ _ _ | .beq _ _ _ | .bne _ _ _ | .j _ | .lw _ _ _ | .sw _ _ _ => 0xFFFFFFFF#32

/-- The instruction the decoder reads from an instruction whose bits are `w`, bit 0 the least significant; every
instruction is one 32-bit word (R48). -/
def decodeTableWord (nbits w : Nat) : Option Instr :=
  match decode (BitVec.ofNat 32 (w % 2 ^ nbits)) with
  | .ok i => some i
  | .error _ => none

end Sys2Proof
end

