-- ==== Sys2Proof/WellFormed.lean ====
section
/-! DEFINITION. What a program image must meet to be one of this hardware (spec `00_scope.md` rule R9, `47_host_interface.md`
rule R99). An `Instr` needs no check: its field widths are its types, and R57 checks no other bit. -/

namespace Sys2Proof

/-- The largest `nI + nW` of a launch (R9, decision D6). -/
def maxUnifiedWords : Nat := 2 ^ 31 - 32768

/-- R99: the two lengths match the two counts. -/
def ProgramImage.countsMatch (img : ProgramImage) : Bool :=
  decide (img.instructionWords.length = img.numInstructions) && decide (img.dataWords.length = img.numWords)

/-- R9: `nI + nW <= 2^31 - 32768`. -/
def ProgramImage.inBound (img : ProgramImage) : Bool :=
  decide (img.numInstructions + img.numWords ≤ maxUnifiedWords)

/-- The image is one a launch of this hardware may take (R9, R99). -/
def ProgramImage.wellFormed (img : ProgramImage) : Bool := img.countsMatch && img.inBound

end Sys2Proof
end

