-- ==== Sys2Proof/Machine/State.lean ====
section
/-! DEFINITION. The machine's state (spec `10_state.md` rules R15 to R32), the reasons a step can stop, and the state after
reset. -/

namespace Sys2Proof.Machine

/-- The unified address space's contents (R33): pairs of a word address and a word, addresses strictly rising, no word
zero; an unlisted address reads as 0. The word is the smallest unit an address names (R38, R39; log entry 5). -/
abbrev Memory := List (Nat × Word)

/-- The canonical form of a memory. -/
abbrev Memory.wf (m : Memory) : Prop := List.Pairwise (fun c d => c.1 < d.1) m ∧ ∀ c ∈ m, c.2 ≠ 0

/-- The sub-kind of a `ControlFlowFault` (R89, R106). -/
inductive TargetRegion where
  /-- "lands in data memory": `nI <= T < nI + nW`. -/
  | inData
  /-- "lands in illegal memory": `T >= nI + nW` or `T < 0` (decision D7). -/
  | illegal
deriving DecidableEq, Repr

/-- The four fault kinds of the spec with the value each records (R106). A fault of this kind is entered, not a stop of the
Lean step: the next state's run state carries it (R107). -/
inductive RunFault where
  | decodeError (word : Word) (index : Nat)
  | arithmeticFault
  | controlFlowFault (target : Int) (region : TargetRegion)
  | memoryFault (address : Int)
deriving DecidableEq, Repr

/-- The run state (R22). -/
inductive RunState where
  | running
  | haltedNormal
  | haltedFault (fault : RunFault)
deriving DecidableEq, Repr

/-- The snapshot of an event: all 34 registers and all `nW` data words (R102). -/
structure Snapshot where
  regs : Vector Word 34
  data : List Word
deriving DecidableEq, Repr

/-- One event of the trace (R102): the index and word of the instruction, whose text is a function of the word (log
entry 8), and the snapshot, present exactly when the run continues. -/
structure Event where
  pc : Nat
  word : Word
  snapshot : Option Snapshot
deriving DecidableEq, Repr

/-- Everything the spec gives the machine. -/
structure State where
  /-- The launch parameters of R10, constant in a run; a field of the model (log entry 7). -/
  config : Config
  /-- `numInstructions` (R9). -/
  nI : Nat
  /-- `numWords` (R9). -/
  nW : Nat
  /-- `imem` at `0 .. nI - 1` and `dmem` at `nI .. nI + nW - 1` (R26, R27, R33). -/
  mem : Memory
  /-- The register file: 0 to 31 general, 32 LO, 33 HI (R15). -/
  regs : Vector Word 34
  /-- The index of the instruction being executed (R21). -/
  pc : Nat
  /-- R22. -/
  runState : RunState
  /-- The integers printed so far, oldest first (R30, R100). -/
  out : List Int
  /-- The integers not yet consumed, as 32-bit patterns, next first (R30, R101). -/
  inp : List Word
  /-- The events emitted so far, oldest first (R30, R102). -/
  trace : List Event
deriving DecidableEq, Repr

/-- Why a step has no next state. -/
inductive Fault where
  /-- Raised by `step` alone, in a halted state: "no step is defined" from one (R22, D18). Safe: nothing follows it on the
  hardware either (log entry 2). -/
  | noStepWhenHalted
deriving DecidableEq, Repr

/-- Why the model takes no run or no instruction. -/
inductive Refusal where
  /-- Raised by a refused arm of `exec` alone: an instruction with no meaning yet. Safe. No arm of this model raises it. -/
  | notModelled (mnemonic : String)
  /-- Raised by `launch` alone: the image's lengths differ from its counts, which "is not a launch of this hardware" (R99).
  Safe (log entry 12). -/
  | imageCountsDiffer
  /-- Raised by `launch` alone: `nI + nW` is past the bound of R9, and such a launch "is refused by the model". Safe (log
  entry 12). -/
  | imageTooLarge
deriving DecidableEq, Repr

/-- The reset state of R114 for the empty image, before a program is loaded (log entry 1): every register 0, `$gp` among
them since `nI = 0` (R31); `pc = 0`, `Running`, every channel empty (R32). -/
def State.reset : State :=
  { config := Config.default, nI := 0, nW := 0, mem := [], regs := Vector.replicate 34 0, pc := 0,
    runState := .running, out := [], inp := [], trace := [] }

end Sys2Proof.Machine
end

