-- ==== Sys2Proof/Machine/Ops.lean ====
section
/-! DEFINITION. The named operations over memory, registers, the pc, the channels and the run state, and fault entry. -/

namespace Sys2Proof.Machine

/-! ## Memory -/

/-- The word at an address; an unlisted address reads as 0. -/
def Memory.read : Memory → Nat → Word
  | [], _ => 0
  | (b, w) :: rest, a => if a = b then w else Memory.read rest a

/-- Set the word at an address, keeping the canonical form. -/
def Memory.write : Memory → Nat → Word → Memory
  | [], a, v => if v = 0 then [] else [(a, v)]
  | (b, w) :: rest, a, v =>
    if a < b then (if v = 0 then (b, w) :: rest else (a, v) :: (b, w) :: rest)
    else if a = b then (if v = 0 then rest else (a, v) :: rest)
    else (b, w) :: Memory.write rest a v

/-- The memory that holds a sequence of words from an address on (R32, R33). -/
def Memory.ofWords : Nat → List Word → Memory
  | _, [] => []
  | base, w :: ws => if w = 0 then Memory.ofWords (base + 1) ws else (base, w) :: Memory.ofWords (base + 1) ws

/-- `imem[i]` (R33: address `i` holds `imem[i]`). -/
def State.imem (s : State) (i : Nat) : Word := s.mem.read i

/-- `dmem[k]` (R33: address `nI + k` holds data word `k`). -/
def State.dmem (s : State) (k : Nat) : Word := s.mem.read (s.nI + k)

/-- The data region of R33, as a test on an exact integer address (R36). -/
def State.inDataRegion (s : State) (addr : Int) : Bool :=
  decide ((s.nI : Int) ≤ addr ∧ addr < (s.nI : Int) + (s.nW : Int))

/-- `MemRead(addr, 1)` of R36. -/
def State.memRead (s : State) (addr : Int) : Except RunFault Word :=
  if s.inDataRegion addr then .ok (s.mem.read addr.toNat) else .error (.memoryFault addr)

/-- The unified memory replaced. -/
def State.setMem (s : State) (m : Memory) : State := { s with mem := m }

/-- `MemWrite(addr, 1, v)` of R37. -/
def State.memWrite (s : State) (addr : Int) (v : Word) : Except RunFault State :=
  if s.inDataRegion addr then .ok (s.setMem (s.mem.write addr.toNat v)) else .error (.memoryFault addr)

/-! ## Registers -/

/-- An index of the register file (R15). -/
abbrev RegIndex := Fin 34

/-- `$v0` (R18). -/
abbrev regV0 : RegIndex := 2

/-- `$a0` (R18). -/
abbrev regA0 : RegIndex := 4

/-- `$gp` (R18). -/
abbrev regGP : RegIndex := 28

/-- LO (R15). -/
abbrev regLO : RegIndex := 32

/-- HI (R15). -/
abbrev regHI : RegIndex := 33

/-- `x[i]` (R13): no read is special-cased (R17). -/
def State.readReg (s : State) (r : RegIndex) : Word := s.regs[r]

/-- `x[i] <- v` (R13): a write to register 0 is discarded (R17). -/
def State.writeReg (s : State) (r : RegIndex) (v : Word) : State :=
  if r = 0 then s else { s with regs := s.regs.set r v }

/-- `LO <- lo; HI <- hi` (R20). -/
def State.writeHiLo (s : State) (hi lo : Word) : State := (s.writeReg regLO lo).writeReg regHI hi

/-! ## Program counter and run state -/

/-- `pc <- t` (R13). -/
def State.setPc (s : State) (t : Nat) : State := { s with pc := t }

/-- `pc <- pc + 1` (R69). -/
def State.advance (s : State) : State := s.setPc (s.pc + 1)

/-- The run state becomes `Halted(Normal)` (R110). -/
def State.haltNormal (s : State) : State := { s with runState := .haltedNormal }

/-- Taking a fault (R107): the run state becomes `Halted(Fault f)` and nothing else changes, the pc included (D18). There is
no vector, no saved register and no return from a fault (R107, R109). -/
def State.takeFault (s : State) (f : RunFault) : State := { s with runState := .haltedFault f }

/-! ## Console channels -/

/-- `out.push(n)` (R86). -/
def State.pushOut (s : State) (n : Int) : State := { s with out := s.out ++ [n] }

/-- The console input after its first integer is consumed (R85). -/
def State.dropInput (s : State) : State := { s with inp := s.inp.tail }

end Sys2Proof.Machine
end

