-- ==== Sys2Proof/Machine/Operands.lean ====
section
/-! DEFINITION. The operand forms: register fields, immediates, branch targets and effective addresses. -/

namespace Sys2Proof.Machine

/-- The register a 5-bit field names, one of 0 to 31 (R16). -/
def regOf (f : RegField) : RegIndex := ⟨f.toNat, Nat.lt_of_lt_of_le f.isLt (by decide)⟩

/-- `x[f]` for a register field. -/
def State.readField (s : State) (f : RegField) : Word := s.readReg (regOf f)

/-- `x[f] <- v` for a register field. -/
def State.writeField (s : State) (f : RegField) (v : Word) : State := s.writeReg (regOf f) v

/-- `zext_16(imm)` (R13, R54), in `[0, 65535]`. -/
def zext16 (imm : ImmField) : Int := (imm.toNat : Int)

/-- `sext_16(imm)` (R13, R54), in `[-32768, 32767]`. -/
def sext16 (imm : ImmField) : Int :=
  if imm.toNat < 2 ^ 15 then (imm.toNat : Int) else (imm.toNat : Int) - 2 ^ 16

/-- The branch target `T = pc + sext_16(imm)` of R88: relative to the branch's own index, exact. -/
def State.branchTarget (s : State) (imm : ImmField) : Int := (s.pc : Int) + sext16 imm

/-- The jump target of R92: the 26-bit field itself, unsigned (R55). -/
def jumpTarget (address : AddressField) : Int := (address.toNat : Int)

/-- The effective address `EA = S(x[rs]) + sext_16(imm)` of R94, exact. -/
def State.effectiveAddress (s : State) (rs : RegField) (imm : ImmField) : Int :=
  S (s.readField rs) + sext16 imm

end Sys2Proof.Machine
end

