-- ==== Sys2Proof/Machine/Flags.lean ====
section
/-! DEFINITION. This hardware has no flags (spec `10_state.md` rule R23); here are the comparisons that stand in their place. -/

namespace Sys2Proof.Machine

/-- The 0/1 result of `slt`: signed less-than (R77). -/
def sltResult (a b : Word) : Word := if S a < S b then 1 else 0

/-- The condition of `beq`: equality of the full 32-bit patterns (R90). -/
def patternsEqual (a b : Word) : Bool := decide (a = b)

end Sys2Proof.Machine
end

