-- ==== Sys2Proof/Machine/AddImm.lean ====
section
/-! DEFINITION. Add immediate (spec `44_addiu.md` rule R87). -/

namespace Sys2Proof.Machine

/-- `addiu rt, rs, imm` (R87): the immediate is zero-extended. -/
def execAddiu (rt rs : RegField) (imm : ImmField) (s : State) : Host.Outcome State Fault Refusal :=
  .next ((s.writeField rt (wrap32 (S (s.readField rs) + zext16 imm))).advance)

end Sys2Proof.Machine
end

