-- ==== Sys2Proof/Machine/AluR.lean ====
section
/-! DEFINITION. The three-register ALU instructions (spec `41_alu_r.md` rules R73 to R78). -/

namespace Sys2Proof.Machine

/-- The shape all five share (R73): sources read first, `x[rd] <- f(x[rs], x[rt])`, `pc <- pc + 1`, no fault. -/
def aluR (f : Word → Word → Word) (rd rs rt : RegField) (s : State) : Host.Outcome State Fault Refusal :=
  .next ((s.writeField rd (f (s.readField rs) (s.readField rt))).advance)

/-- `addu rd, rs, rt` (R74). -/
def execAddu (rd rs rt : RegField) (s : State) : Host.Outcome State Fault Refusal :=
  aluR (fun a b => wrap32 (S a + S b)) rd rs rt s

/-- `and rd, rs, rt` (R75). -/
def execAnd (rd rs rt : RegField) (s : State) : Host.Outcome State Fault Refusal :=
  aluR (fun a b => a &&& b) rd rs rt s

/-- `or rd, rs, rt` (R76). -/
def execOr (rd rs rt : RegField) (s : State) : Host.Outcome State Fault Refusal :=
  aluR (fun a b => a ||| b) rd rs rt s

/-- `slt rd, rs, rt` (R77). -/
def execSlt (rd rs rt : RegField) (s : State) : Host.Outcome State Fault Refusal :=
  aluR sltResult rd rs rt s

/-- `subu rd, rs, rt` (R78): `rs` minus `rt`. -/
def execSubu (rd rs rt : RegField) (s : State) : Host.Outcome State Fault Refusal :=
  aluR (fun a b => wrap32 (S a - S b)) rd rs rt s

end Sys2Proof.Machine
end

