-- ==== Sys2Proof/Machine/Control.lean ====
section
/-! DEFINITION. Control transfer (spec `45_branch_jump.md` rules R88 to R92). -/

namespace Sys2Proof.Machine

/-- `check_target(T)` of R89: the fault a transfer to `T` raises, if any. -/
def State.targetFault (s : State) (t : Int) : Option RunFault :=
  if 0 ≤ t ∧ t < (s.nI : Int) then none
  else if s.inDataRegion t then some (.controlFlowFault t .inData)
  else some (.controlFlowFault t .illegal)

/-- `check_target(T); pc <- T` (R89, R90 to R92). -/
def State.transfer (s : State) (t : Int) : State :=
  match s.targetFault t with
  | none => s.setPc t.toNat
  | some f => s.takeFault f

/-- `beq rs, rt, imm` (R90). -/
def execBeq (rs rt : RegField) (imm : ImmField) (s : State) : Host.Outcome State Fault Refusal :=
  if patternsEqual (s.readField rs) (s.readField rt) then .next (s.transfer (s.branchTarget imm))
  else .next s.advance

/-- `bne rs, rt, imm` (R91). -/
def execBne (rs rt : RegField) (imm : ImmField) (s : State) : Host.Outcome State Fault Refusal :=
  if patternsEqual (s.readField rs) (s.readField rt) then .next s.advance
  else .next (s.transfer (s.branchTarget imm))

/-- `j address` (R92). -/
def execJ (address : AddressField) (s : State) : Host.Outcome State Fault Refusal :=
  .next (s.transfer (jumpTarget address))

end Sys2Proof.Machine
end

