-- ==== Sys2Proof/Machine/LoadStore.lean ====
section
/-! DEFINITION. Loads and stores (spec `46_load_store.md` rules R94 to R97). -/

namespace Sys2Proof.Machine

/-- `lw rt, imm(rs)` (R95): the address is checked even when `rt = 0` (decision D22). -/
def execLw (rt rs : RegField) (imm : ImmField) (s : State) : Host.Outcome State Fault Refusal :=
  match s.memRead (s.effectiveAddress rs imm) with
  | .ok v => .next ((s.writeField rt v).advance)
  | .error f => .next (s.takeFault f)

/-- `sw rt, imm(rs)` (R96). -/
def execSw (rt rs : RegField) (imm : ImmField) (s : State) : Host.Outcome State Fault Refusal :=
  match s.memWrite (s.effectiveAddress rs imm) (s.readField rt) with
  | .ok t => .next t.advance
  | .error f => .next (s.takeFault f)

end Sys2Proof.Machine
end

