-- ==== Sys2Proof/Machine/MulDiv.lean ====
section
/-! DEFINITION. Multiply, divide and the HI/LO moves (spec `42_muldiv_hilo.md` rules R80 to R83). -/

namespace Sys2Proof.Machine

/-- The one quotient that does not fit 32 bits (R80, decision D5). -/
def divOverflows (a b : Int) : Bool := decide (a = -(2 ^ 31) ∧ b = -1)

/-- Whether `div` of `a` by `b` raises `ArithmeticFault` (R80): division by zero, and the overflow case when
`DIV_OVERFLOW = fault`. -/
def State.divFaults (s : State) (a b : Int) : Bool :=
  decide (b = 0) || (divOverflows a b && decide (s.config.divOverflow = .fault))

/-- `div rs, rt` (R80): the quotient rounds toward zero, the remainder is `a - q * b`. -/
def execDiv (rs rt : RegField) (s : State) : Host.Outcome State Fault Refusal :=
  let a := S (s.readField rs)
  let b := S (s.readField rt)
  if s.divFaults a b then .next (s.takeFault .arithmeticFault)
  else
    let q := Int.tdiv a b
    .next ((s.writeHiLo (wrap32 (a - q * b)) (wrap32 q)).advance)

/-- `mult rs, rt` (R81): the 64-bit pattern of the exact signed product, high half to HI, low half to LO. -/
def execMult (rs rt : RegField) (s : State) : Host.Outcome State Fault Refusal :=
  let p : BitVec 64 := BitVec.ofInt 64 (S (s.readField rs) * S (s.readField rt))
  .next ((s.writeHiLo (p.extractLsb' 32 32) (p.extractLsb' 0 32)).advance)

/-- `mfhi rd` (R82). -/
def execMfhi (rd : RegField) (s : State) : Host.Outcome State Fault Refusal :=
  .next ((s.writeField rd (s.readReg regHI)).advance)

/-- `mflo rd` (R83). -/
def execMflo (rd : RegField) (s : State) : Host.Outcome State Fault Refusal :=
  .next ((s.writeField rd (s.readReg regLO)).advance)

end Sys2Proof.Machine
end

