-- ==== Sys2Proof/Machine/Syscall.lean ====
section
/-! DEFINITION. The syscall handler stub (spec `43_syscall.md` rules R84 to R86). -/

namespace Sys2Proof.Machine

/-- The service selector: the full signed value of `$v0` at dispatch (R84, decision D23). -/
def State.service (s : State) : Int := S (s.readReg regV0)

/-- Service 1, print integer (R86). -/
def printInteger (s : State) : State := (s.pushOut (S (s.readReg regA0))).advance

/-- Service 5, read integer (R85): with no input the engine is held, nothing changed. -/
def readInteger (s : State) : State :=
  match s.inp with
  | [] => s
  | n :: _ => (s.dropInput.writeReg regV0 n).advance

/-- Service 10 (R84): completes like any instruction, and the run ends in `Halted(Normal)` (R70 (a); log entry 14). -/
def exitRun (s : State) : State := s.advance.haltNormal

/-- `syscall` (R84): every selector but 1, 5 and 10 does nothing but advance the pc. -/
def execSyscall (s : State) : Host.Outcome State Fault Refusal :=
  if s.service = 1 then .next (printInteger s)
  else if s.service = 5 then .next (readInteger s)
  else if s.service = 10 then .next (exitRun s)
  else .next s.advance

/-- The step of instruction `i` is held: service 5 with an empty input (R85). -/
def heldForInput (i : Instr) (s : State) : Bool :=
  decide (i = .syscall) && decide (s.service = 5) && decide (s.inp = [])

end Sys2Proof.Machine
end

