-- ==== Sys2Proof/Machine/Cycle.lean ====
section
/-! DEFINITION. What the step adds around `exec`: fetch, validation, the trace and the halt check (spec `40_step_dispatch.md`
rules R63 to R71, `47_host_interface.md` rule R102). -/

namespace Sys2Proof.Machine

/-- `W <- imem[pc]` (R66). -/
def State.fetch (s : State) : Word := s.imem s.pc

/-- All `nW` data words in order (R102). -/
def State.dataWords (s : State) : List Word := (List.range s.nW).map s.dmem

/-- The snapshot of the registers and the data memory (R102). -/
def State.snapshot (s : State) : Snapshot := { regs := s.regs, data := s.dataWords }

/-- Append one event to the trace (R102). -/
def State.emit (s : State) (e : Event) : State := { s with trace := s.trace ++ [e] }

/-- The halt check of R70 (b): the updated pc at or beyond `nI` ends a running run normally. -/
def State.haltCheck (s : State) : State :=
  if s.runState = .running ∧ s.nI ≤ s.pc then s.haltNormal else s

/-- The event of an instruction at `pc` with word `w` that left the state `t`: a snapshot exactly when the run continues
(R63, R102). -/
def eventOf (pc : Nat) (w : Word) (t : State) : Event :=
  { pc := pc, word := w, snapshot := if t.runState = .running then some t.snapshot else none }

/-- The end of a step: the halt check, then the event (R63 phase 4, R102). -/
def finishStep (pc : Nat) (w : Word) (t : State) : State := t.haltCheck.emit (eventOf pc w t.haltCheck)

/-- Execute a decoded instruction and end the step; a held service 5 leaves everything as it is (R85). -/
def runInstr (i : Instr) (w : Word) (s : State) : Host.Outcome State Fault Refusal :=
  if heldForInput i s then .next s
  else
    match exec i s with
    | .next t => .next (finishStep s.pc w t)
    | .fault f => .fault f
    | .refused r => .refused r

/-- Validate and execute the fetched word (R67, R68): a word of no row raises `DecodeError`, with no event. -/
def runWord (w : Word) (s : State) : Host.Outcome State Fault Refusal :=
  match decode w with
  | .ok i => runInstr i w s
  | .error _ => .next (s.takeFault (.decodeError w s.pc))

/-- The step of a running machine (R63). At or beyond `nI` there is nothing to fetch and the run ends normally (R70, R115;
log entry 6). -/
def runCycle (s : State) : Host.Outcome State Fault Refusal :=
  if s.pc < s.nI then runWord s.fetch s else .next s.haltNormal

/-- A word placed where the next fetch reads it: the instruction region reaches past `pc`, and the run is running (log
entry 11). -/
def placeWord (s : State) (w : Word) : State :=
  { s with nI := max s.nI (s.pc + 1), mem := s.mem.write s.pc w, runState := .running }

end Sys2Proof.Machine
end

