-- ==== Sys2Proof/Machine/Step.lean ====
section
/-! DEFINITION. The step (spec `40_step_dispatch.md` rule R63) and the host's way to place one instruction. -/

namespace Sys2Proof.Machine

/-- One step: defined only while `Running` (R63, R22). -/
def step (s : State) : Host.Outcome State Fault Refusal :=
  match s.runState with
  | .running => runCycle s
  | .haltedNormal => .fault .noStepWhenHalted
  | .haltedFault _ => .fault .noStepWhenHalted

/-- `s` with the instruction of bits `w` where the next step fetches (log entry 11). -/
def State.withFetchWord (s : State) (nbits w : Nat) : State := placeWord s (BitVec.ofNat 32 (w % 2 ^ nbits))

end Sys2Proof.Machine
end

