-- ==== Sys2Proof/Machine/Disasm.lean ====
section
/-! DEFINITION. The disassembly text of the trace (spec `30_encoding.md` rule R61) and the register names (`10_state.md` rule
R18). No architectural effect reads it. -/

namespace Sys2Proof.Machine

/-- The names of R18, index 0 first; LO and HI last. -/
def regNames : List String :=
  ["$zero", "$at", "$v0", "$v1", "$a0", "$a1", "$a2", "$a3"] ++
  ["$t0", "$t1", "$t2", "$t3", "$t4", "$t5", "$t6", "$t7"] ++
  ["$s0", "$s1", "$s2", "$s3", "$s4", "$s5", "$s6", "$s7"] ++
  ["$t8", "$t9", "$k0", "$k1", "$gp", "$sp", "$fp", "$ra", "LO", "HI"]

/-- The name of register `r` (R18). -/
def regName (r : Nat) : String := regNames.getD r ""

/-- A natural number in the chosen radix (R61, `TEXT_RADIX`); the prefix of the hexadecimal form is log entry 8's. -/
def showNat (radix : TextRadix) (n : Nat) : String :=
  match radix with
  | .decimal => String.ofList (Nat.toDigits 10 n)
  | .hexadecimal => "0x" ++ String.ofList (Nat.toDigits 16 n)

/-- A signed number in the chosen radix. -/
def showInt (radix : TextRadix) (n : Int) : String :=
  if n < 0 then "-" ++ showNat radix n.natAbs else showNat radix n.natAbs

/-- The text of a register field. -/
def showReg (f : RegField) : String := regName f.toNat

/-- The register operands of an instruction, separated by commas with no space after them. -/
def showRegs (fs : List RegField) : String := String.intercalate "," (fs.map showReg)

/-- `mnemonic\t$rt,<signed-imm>($rs)` of R61. -/
def showMemory (mnemonic : String) (radix : TextRadix) (rt rs : RegField) (imm : ImmField) : String :=
  mnemonic ++ "\t" ++ showReg rt ++ "," ++ showInt radix imm.toInt ++ "(" ++ showReg rs ++ ")"

/-- The text of an instruction, class by class (R61). -/
def showInstr (radix : TextRadix) (i : Instr) : String :=
  match i with
  | .addu rd rs rt | .and rd rs rt | .or rd rs rt | .slt rd rs rt | .subu rd rs rt =>
    mnemonicOf i ++ "\t" ++ showRegs [rd, rs, rt]
  | .div rs rt | .mult rs rt => mnemonicOf i ++ "\t" ++ showRegs [rs, rt]
  | .mfhi rd | .mflo rd => mnemonicOf i ++ "\t" ++ showRegs [rd]
  | .syscall => "syscall"
  | .addiu rt rs imm => "addiu\t" ++ showRegs [rt, rs] ++ "," ++ showNat radix imm.toNat
  | .beq rs rt imm | .bne rs rt imm => mnemonicOf i ++ "\t" ++ showRegs [rs, rt] ++ "," ++ showInt radix imm.toInt
  | .j address => "j " ++ showNat radix address.toNat
  | .lw rt rs imm | .sw rt rs imm => showMemory (mnemonicOf i) radix rt rs imm

/-- The disassembly of a word: a pure function of it, and no text for an illegal word (R61, decision D14). -/
def disassemble (radix : TextRadix) (w : Word) : Option String :=
  match decode w with
  | .ok i => some (showInstr radix i)
  | .error _ => none

/-- The text of an event's header (R102). -/
def Event.text (radix : TextRadix) (e : Event) : Option String := disassemble radix e.word

/-- What labels a value of a snapshot: "symbolic register name (see glossary) or … unified address" (R102). -/
inductive SnapshotLabel where
  | register (name : String)
  | address (unified : Nat)
deriving DecidableEq, Repr

/-- One event as the trace shows it: the pc, the text of the instruction, the labelled snapshot (R102). -/
structure TraceLine where
  pc : Nat
  text : Option String
  snapshot : Option (List (SnapshotLabel × Word))
deriving DecidableEq, Repr

/-- The labels of a snapshot: the register names of R18, then `nI + k` for data word `k` (R102). -/
def snapshotLabels (nI nW : Nat) : List SnapshotLabel :=
  regNames.map .register ++ (List.range nW).map fun k => .address (nI + k)

/-- The snapshot's values under their labels (R102). -/
def Snapshot.labelled (nI : Nat) (p : Snapshot) : List (SnapshotLabel × Word) :=
  (snapshotLabels nI p.data.length).zip (p.regs.toList ++ p.data)

/-- An event as the trace of this run shows it, its text in the radix the launch chose (R10 `TEXT_RADIX`, R61, R102). -/
def State.showEvent (s : State) (e : Event) : TraceLine :=
  { pc := e.pc, text := e.text s.config.textRadix, snapshot := e.snapshot.map (Snapshot.labelled s.nI) }

/-- The trace the core yields to the host (R98, R102). -/
def State.shownTrace (s : State) : List TraceLine := s.trace.map s.showEvent

end Sys2Proof.Machine
end

