-- ==== Sys2Proof/Machine/Launch.lean ====
section
/-! DEFINITION. Launch (spec `70_reset_and_hazards.md` rules R114, R115) and what else the host can do (`47_host_interface.md`
rules R101 to R105). -/

namespace Sys2Proof.Machine

/-- The reset state of R114 for an image (R31, R32): `$gp` is `nI`, every other register 0, memory holds the image. -/
def resetState (cfg : Config) (img : ProgramImage) (inp : List Word) : State :=
  { config := cfg, nI := img.numInstructions, nW := img.numWords,
    mem := Memory.ofWords 0 (img.instructionWords ++ img.dataWords),
    regs := (Vector.replicate 34 0).set regGP (BitVec.ofNat 32 img.numInstructions),
    pc := 0, runState := .running, out := [], inp := inp, trace := [] }

/-- The lowest index below `nI` whose word the launch scan rejects (R115, decision D11). -/
def State.firstIllegalR (s : State) : Option Nat := (List.range s.nI).find? (fun i => illegalRWord (s.imem i))

/-- The launch scan of R115: made only with `EAGER_R_VALIDATION`. -/
def State.launchScan (s : State) : Option Nat := if s.config.eagerRValidation then s.firstIllegalR else none

/-- The two launch checks of R115 on the reset state: the scan, then the empty program. -/
def State.launchChecks (s : State) : State :=
  match s.launchScan with
  | some i => s.takeFault (.decodeError (s.imem i) i)
  | none => if s.nI ≤ s.pc then s.haltNormal else s

/-- Launch (R115); an image that is none of this hardware's is refused (R9, R99; log entry 12). -/
def launch (cfg : Config) (img : ProgramImage) (inp : List Word) : Host.Outcome State Fault Refusal :=
  if img.countsMatch then
    if img.inBound then .next (resetState cfg img inp).launchChecks else .refused .imageTooLarge
  else .refused .imageCountsDiffer

/-- The host appends integers to the console input, between two steps (R101; log entry 9). -/
def State.supplyInput (s : State) (ns : List Word) : State := { s with inp := s.inp ++ ns }

/-- The diagnostic of R103: the fault kind and value, once the run has ended in a fault. -/
def State.diagnostic (s : State) : Option RunFault :=
  match s.runState with
  | .haltedFault f => some f
  | .running => none
  | .haltedNormal => none

/-- The code of a fault kind (R106, decision D15). -/
def RunFault.code : RunFault → Nat
  | .decodeError _ _ => 1
  | .arithmeticFault => 2
  | .controlFlowFault _ _ => 3
  | .memoryFault _ => 4

/-- The phrases the source gives for the diagnostic (R103); no other wording is fixed. -/
def RunFault.phrase : RunFault → Option String
  | .decodeError _ _ => none
  | .arithmeticFault => none
  | .controlFlowFault _ .inData => some "lands in data memory"
  | .controlFlowFault _ .illegal => some "lands in illegal memory"
  | .memoryFault _ => some "outside of data memory"

end Sys2Proof.Machine
end

