-- ==== Sys2Proof/Safety.lean ====
section
/-! DEFINITION. The terms the claims use: the invariant of the machine, what a run reaches, which registers an instruction
reads and writes (spec `10_state.md` rule R19), and the shapes of an instruction's result. -/

namespace Sys2Proof.Machine

/-! ## The invariant -/

/-- A recorded fault tells the truth about the state it ended (R106, R89). -/
def RunFault.truthful (s : State) : RunFault → Prop
  | .decodeError w i => i < s.nI ∧ w = s.imem i ∧ supported w = false
  | .arithmeticFault => True
  | .controlFlowFault t .inData => (s.nI : Int) ≤ t ∧ t < (s.nI : Int) + s.nW
  | .controlFlowFault t .illegal => t < 0 ∨ (s.nI : Int) + s.nW ≤ t
  | .memoryFault a => a < (s.nI : Int) ∨ (s.nI : Int) + s.nW ≤ a

/-- An event of the trace tells of an instruction of this program (R102). -/
structure Event.wellFormed (s : State) (e : Event) : Prop where
  inProgram : e.pc < s.nI
  wordOfProgram : e.word = s.imem e.pc
  isInstruction : supported e.word = true
  dataLength : ∀ p, e.snapshot = some p → p.data.length = s.nW
  zeroShown : ∀ p, e.snapshot = some p → p.regs[(0 : RegIndex)] = 0

/-- What holds of the machine at reset and at launch and is kept by every step. -/
structure State.Inv (s : State) : Prop where
  /-- The launch bound of R9. -/
  bound : s.nI + s.nW ≤ maxUnifiedWords
  /-- The memory keeps its canonical form. -/
  memCanonical : s.mem.wf
  /-- No word is held outside the unified address space (R33). -/
  memInSpace : ∀ c ∈ s.mem, c.1 < s.nI + s.nW
  /-- Register 0 reads 0 (R17). -/
  zeroRegister : s.readReg 0 = 0
  /-- The reachable values of the pc are `0 .. nI` (R21). -/
  pcInRange : s.pc ≤ s.nI
  /-- Printed integers are signed 32-bit integers (R86, R98). -/
  outSigned : ∀ n ∈ s.out, -(2 ^ 31) ≤ n ∧ n < 2 ^ 31
  /-- Every event tells of an instruction of the program (R102). -/
  traceOfProgram : ∀ e ∈ s.trace, e.wellFormed s
  /-- A fault's record is truthful (R106). -/
  faultTruthful : ∀ f, s.runState = .haltedFault f → f.truthful s

/-- What a run can reach: steps, and integers appended by the host between them (R101). -/
inductive Reachable (s : State) : State → Prop where
  | start : Reachable s s
  | stepped (t u : State) (ht : Reachable s t) (hu : step t = .next u) : Reachable s u
  | supplied (t : State) (ns : List Word) (ht : Reachable s t) : Reachable s (t.supplyInput ns)

/-! ## Registers read and written (R19) -/

/-- The registers an instruction reads (R19). -/
def readSet (i : Instr) (s : State) : List RegIndex :=
  match i with
  | .addu _ rs rt | .and _ rs rt | .or _ rs rt | .slt _ rs rt | .subu _ rs rt => [regOf rs, regOf rt]
  | .div rs rt | .mult rs rt => [regOf rs, regOf rt]
  | .mfhi _ => [regHI]
  | .mflo _ => [regLO]
  | .syscall => if S (s.readReg regV0) = 1 then [regV0, regA0] else [regV0]
  | .addiu _ rs _ => [regOf rs]
  | .beq rs rt _ | .bne rs rt _ => [regOf rs, regOf rt]
  | .j _ => []
  | .lw _ rs _ => [regOf rs]
  | .sw rt rs _ => [regOf rs, regOf rt]

/-- The registers an instruction writes when it completes (R19); a write to register 0 is discarded. -/
def writeSet (i : Instr) (s : State) : List RegIndex :=
  match i with
  | .addu rd _ _ | .and rd _ _ | .or rd _ _ | .slt rd _ _ | .subu rd _ _ => [regOf rd]
  | .div _ _ | .mult _ _ => [regLO, regHI]
  | .mfhi rd | .mflo rd => [regOf rd]
  | .syscall => if S (s.readReg regV0) = 5 then [regV0] else []
  | .addiu rt _ _ | .lw rt _ _ => [regOf rt]
  | .beq _ _ _ | .bne _ _ _ | .j _ | .sw _ _ _ => []

/-- The new pc of an instruction that completes (the table of R21). -/
def pcAfter (i : Instr) (s : State) : Int :=
  match i with
  | .beq rs rt imm => if s.readField rs = s.readField rt then (s.pc : Int) + imm.toInt else (s.pc : Int) + 1
  | .bne rs rt imm => if s.readField rs = s.readField rt then (s.pc : Int) + 1 else (s.pc : Int) + imm.toInt
  | .j address => (address.toNat : Int)
  | .addu _ _ _ | .and _ _ _ | .or _ _ _ | .slt _ _ _ | .subu _ _ _ | .div _ _ | .mult _ _ | .mfhi _ | .mflo _
  | .syscall | .addiu _ _ _ | .lw _ _ _ | .sw _ _ _ => (s.pc : Int) + 1

/-- A register overwritten from outside, register 0 included: what two runs that differ in one register differ by. -/
def State.poke (s : State) (r : RegIndex) (v : Word) : State := { s with regs := s.regs.set r v }

/-- The run with another `TEXT_RADIX` (R10): what two runs that differ in that parameter alone differ by. -/
def State.withTextRadix (s : State) (r : TextRadix) : State := { s with config := { s.config with textRadix := r } }

/-! ## Shapes of a result -/

/-- Every word of memory reads as before. -/
def SameMemory (s t : State) : Prop := ∀ a, t.mem.read a = s.mem.read a

/-- The parameters, the counts, the run state, the channels and the trace are as before. -/
def SameSurroundings (s t : State) : Prop :=
  t.config = s.config ∧ t.nI = s.nI ∧ t.nW = s.nW ∧ t.runState = s.runState ∧ t.out = s.out ∧ t.inp = s.inp ∧
    t.trace = s.trace

/-- `i` completes from `s`: register `d` gets `v` (nothing does if `d = 0`), the pc advances by 1, and every other register,
every word of memory and everything else stays. -/
def WritesOneRegister (i : Instr) (s : State) (d : RegIndex) (v : Word) : Prop :=
  ∃ t, exec i s = .next t ∧ (∀ r, t.readReg r = if r = d ∧ d ≠ 0 then v else s.readReg r) ∧ t.pc = s.pc + 1 ∧
    SameMemory s t ∧ SameSurroundings s t

/-- `i` completes from `s`: HI and LO get `hi` and `lo`, the pc advances by 1, and everything else stays. -/
def WritesHiLo (i : Instr) (s : State) (hi lo : Word) : Prop :=
  ∃ t, exec i s = .next t ∧ t.readReg regHI = hi ∧ t.readReg regLO = lo ∧
    (∀ r, r ≠ regHI → r ≠ regLO → t.readReg r = s.readReg r) ∧ t.pc = s.pc + 1 ∧ SameMemory s t ∧ SameSurroundings s t

/-- `i` raises the fault `f` from `s`: the run state records it and every other field stays, the pc included (R107). -/
def RaisesFault (i : Instr) (s : State) (f : RunFault) : Prop :=
  exec i s = .next { s with runState := .haltedFault f }

end Sys2Proof.Machine
end

