-- ==== Sys2Proof/Certificates/Slice0/Obligations.lean ====
section
/-! DEFINITION. The statements for the provers. The rule each formalises stands in its docstring; `OBLIGATIONS.json` lists
them. -/

open Sys2Proof Sys2Proof.Machine

/-! ## Encoding -/

/-- The worked words of `95_test_vectors.md` section 2.1 (V-E1 to V-E12, and the table of 16), a few of them. -/
def Obligations.WorkedWordsDecode : Prop :=
  decode 0x012A4823#32 = .ok (.subu 9 9 10) ∧ decode 0x8F88FFFC#32 = .ok (.lw 8 28 0xFFFC) ∧
  decode 0x08123456#32 = .ok (.j 0x123456) ∧ decode 0x25288000#32 = .ok (.addiu 8 9 0x8000) ∧
  decode 0x1520FFFE#32 = .ok (.bne 9 0 0xFFFE) ∧ decode 0x03FFFFCC#32 = .ok .syscall ∧
  decode 0x0108FFD8#32 = .ok (.mult 8 8) ∧ supported 0x00000000#32 = false ∧ supported 0x3C080001#32 = false

/-- R53: each field is `(W >> lo) mod 2^width`, for every word; the positions are R50 to R52's, by the spec's decision D1
(log entry 15). -/
def Obligations.FieldsAreShiftAndModulo : Prop :=
  ∀ w : Word, (opcodeOf w).toNat = w.toNat / 2 ^ 26 % 2 ^ 6 ∧ (rsOf w).toNat = w.toNat / 2 ^ 21 % 2 ^ 5 ∧
    (rtOf w).toNat = w.toNat / 2 ^ 16 % 2 ^ 5 ∧ (rdOf w).toNat = w.toNat / 2 ^ 11 % 2 ^ 5 ∧
    (shamtOf w).toNat = w.toNat / 2 ^ 6 % 2 ^ 5 ∧ (functOf w).toNat = w.toNat % 2 ^ 6 ∧
    (immOf w).toNat = w.toNat % 2 ^ 16 ∧ (addressOf w).toNat = w.toNat % 2 ^ 26

/-- Decoding the encoding of any instruction gives it back, every operand at every value (R50 to R52, R56). -/
def Obligations.DecodeAfterEncodeIsIdentity : Prop :=
  ∀ i : Instr, decode (encode i) = .ok i

/-- Encoding what a word decodes to gives the word with its ignored bits (R57) cleared. -/
def Obligations.EncodeAfterDecodeKeepsUsedBits : Prop :=
  ∀ (w : Word) (i : Instr), decode w = .ok i → encode i = w &&& usedBits i

/-- R57, which the spec derives from R49 and its decision D19: the ignored bits may hold any value. They are `shamt` of the
R-format; `rd` of `div`, `mult`; `rs`, `rt` of `mfhi`, `mflo`; all of `W[25:6]` of `syscall`. Any R-format word keeps its
meaning when those fields are replaced. -/
def Obligations.IgnoredFieldsDoNotMatter : Prop :=
  ∀ (rs rt rd rs' rt' rd' : RegField) (sh sh' : BitVec 5) (fn : BitVec 6),
    decode (wordR rs rt rd sh fn) = decode (wordR rs rt rd sh' fn) ∧
    (fn = 0x1A ∨ fn = 0x18 → decode (wordR rs rt rd sh fn) = decode (wordR rs rt rd' sh' fn)) ∧
    (fn = 0x10 ∨ fn = 0x12 → decode (wordR rs rt rd sh fn) = decode (wordR rs' rt' rd sh' fn)) ∧
    (fn = 0x0C → decode (wordR rs rt rd sh fn) = decode (wordR rs' rt' rd' sh' fn))

/-- R56: a word is the instruction of a row exactly when `W & mask = match`, for the 16 rows of the table, which are
pairwise disjoint. The numbers are the spec's decision D2 (log entry 15). -/
def Obligations.RowSelectsByMaskAndMatch : Prop :=
  (∀ (w : Word) (row : Row), row ∈ opcodeTable →
    ((∃ i, decode w = .ok i ∧ mnemonicOf i = row.mnemonic) ↔ w &&& row.mask = row.pattern)) ∧
  (∀ (w : Word) (r q : Row), r ∈ opcodeTable → q ∈ opcodeTable → w &&& r.mask = r.pattern → w &&& q.mask = q.pattern →
    r = q)

/-- R59: the illegal words are those of opcode 0 with a funct outside the ten, and those of an opcode outside the seven. -/
def Obligations.IllegalWordsAreOutsideTheLists : Prop :=
  ∀ w : Word, supported w = false ↔
    (opcodeOf w = 0 ∧
      functOf w ∉ [0x0C#6, 0x10#6, 0x12#6, 0x18#6, 0x1A#6, 0x21#6, 0x23#6, 0x24#6, 0x25#6, 0x2A#6]) ∨
    opcodeOf w ∉ [0x00#6, 0x02#6, 0x04#6, 0x05#6, 0x09#6, 0x23#6, 0x2B#6]

/-- The disassembly text is defined exactly for the supported words, and no ignored field (R57) appears in it (R61). -/
def Obligations.TextShowsNoIgnoredField : Prop :=
  ∀ (radix : TextRadix) (w : Word), (disassemble radix w = none ↔ supported w = false) ∧
    ∀ (i : Instr) (w' : Word), decode w = .ok i → w' &&& usedBits i = w &&& usedBits i →
      disassemble radix w' = disassemble radix w

/-- The two readings of a 16-bit immediate (R13, R54): `zext_16` in `0 .. 65535`, `sext_16` the two's-complement value, and
both agree with the field modulo `2^16`. -/
def Obligations.ImmediateReadings : Prop :=
  ∀ imm : ImmField, (0 ≤ zext16 imm ∧ zext16 imm ≤ 65535 ∧ BitVec.ofInt 16 (zext16 imm) = imm) ∧
    (-32768 ≤ sext16 imm ∧ sext16 imm ≤ 32767 ∧ BitVec.ofInt 16 (sext16 imm) = imm)

/-! ## Reset and launch -/

/-- R31, R32: the launch state of a well-formed image, register by register and word by word. -/
def Obligations.ResetStateOfImage : Prop :=
  ∀ (cfg : Config) (img : ProgramImage) (inp : List Word), img.wellFormed = true →
    let s := resetState cfg img inp
    S (s.readReg 28) = img.numInstructions ∧ (∀ r, r ≠ 28 → s.readReg r = 0) ∧ s.pc = 0 ∧ s.runState = .running ∧
    s.nI = img.numInstructions ∧ s.nW = img.numWords ∧
    (∀ (k : Nat) (h : k < img.dataWords.length), s.dmem k = img.dataWords[k]) ∧
    (∀ (i : Nat) (h : i < img.instructionWords.length), s.imem i = img.instructionWords[i]) ∧
    s.out = [] ∧ s.trace = [] ∧ s.inp = inp

/-- R115: launch scans for an illegal opcode-0 word when `EAGER_R_VALIDATION`, reporting the lowest index, then ends the
empty program; otherwise the run starts in the reset state. The lowest index and the empty program's end are the spec's
decisions D11 and D10 (log entry 16). -/
def Obligations.LaunchScanThenEmptyProgram : Prop :=
  ∀ (cfg : Config) (img : ProgramImage) (inp : List Word), img.wellFormed = true →
    let s := resetState cfg img inp
    (∀ i, cfg.eagerRValidation = true → i < s.nI → opcodeOf (s.imem i) = 0 → supported (s.imem i) = false →
      (∀ k, k < i → ¬ (opcodeOf (s.imem k) = 0 ∧ supported (s.imem k) = false)) →
      launch cfg img inp = .next { s with runState := .haltedFault (.decodeError (s.imem i) i) }) ∧
    ((cfg.eagerRValidation = false ∨ ∀ k, k < s.nI → ¬ (opcodeOf (s.imem k) = 0 ∧ supported (s.imem k) = false)) →
      launch cfg img inp = .next (if s.nI = 0 then { s with runState := .haltedNormal } else s))

/-- A launch is refused exactly when the image's lengths differ from its counts (R99) or `nI + nW` passes the bound (R9). -/
def Obligations.LaunchRefusesOtherImages : Prop :=
  ∀ (cfg : Config) (img : ProgramImage) (inp : List Word),
    (∃ r, launch cfg img inp = .refused r) ↔
      img.instructionWords.length ≠ img.numInstructions ∨ img.dataWords.length ≠ img.numWords ∨
      2 ^ 31 - 32768 < img.numInstructions + img.numWords

/-! ## Invariants -/

/-- The invariant holds at reset (the reset state of the empty image: log entry 1). -/
def Obligations.ResetMeetsInvariant : Prop := State.reset.Inv

/-- The invariant holds after every launch, whatever the image, the parameters and the input. -/
def Obligations.LaunchMeetsInvariant : Prop :=
  ∀ (cfg : Config) (img : ProgramImage) (inp : List Word) (t : State), launch cfg img inp = .next t → t.Inv

/-- Every step keeps the invariant: canonical memory inside the address space, register 0 reading 0 (R17), the pc in
`0 .. nI` (R21), a truthful fault record (R106), a trace of this program's instructions (R102). -/
def Obligations.StepKeepsInvariant : Prop :=
  ∀ s t : State, s.Inv → step s = .next t → t.Inv

/-- Whatever a run reaches from a launch, with input appended at any time: the counts are the image's, every instruction word
is the image's (R26, R45), register 0 reads 0 (R17), and while running `pc < nI` (R65). -/
def Obligations.RunNeverChangesItsProgram : Prop :=
  ∀ (cfg : Config) (img : ProgramImage) (inp : List Word) (s t : State),
    launch cfg img inp = .next s → Reachable s t →
    t.nI = img.numInstructions ∧ t.nW = img.numWords ∧ t.config = cfg ∧
    (∀ (i : Nat) (h : i < img.instructionWords.length), t.imem i = img.instructionWords[i]) ∧
    t.readReg 0 = 0 ∧ (t.runState = .running → t.pc < t.nI)

/-! ## The step -/

/-- A step of a running machine runs the instruction that the word at the pc decodes to: that instruction's `exec` answers a
next state, and the step is that state after the halt check, with the event (R63, R66 to R68); that a step held by service 5
(R85) answers the same state is log entry 4's reading. -/
def Obligations.StepRunsDecodedInstruction : Prop :=
  ∀ (s : State) (i : Instr), s.runState = .running → s.pc < s.nI → decode (s.mem.read s.pc) = .ok i →
    ∃ t, exec i s = .next t ∧
      step s = .next (if heldForInput i s then s else finishStep s.pc (s.mem.read s.pc) t)

/-- R67: a fetched word of no row raises `DecodeError(W, pc)`, writes nothing and emits no event header. -/
def Obligations.StepRaisesDecodeError : Prop :=
  ∀ s : State, s.runState = .running → s.pc < s.nI → supported (s.imem s.pc) = false →
    step s = .next { s with runState := .haltedFault (.decodeError (s.imem s.pc) s.pc) }

/-- No step is defined from a halted state, and one is from every running state (R22, R63). The form of the stop is log entry
2's; that a held service 5 answers a next state, the same one, is log entry 4's; that a running state with the pc at or beyond
`nI` does, halting, is log entry 6's. -/
def Obligations.StepIsDefinedExactlyWhileRunning : Prop :=
  ∀ s : State, (s.runState = .running → ∃ t, step s = .next t) ∧
    (s.runState ≠ .running → step s = .fault .noStepWhenHalted)

/-- R85: service 5 with an empty input holds the step, with no state changed and no event emitted, until the host supplies
an integer; then the integer is consumed into `$v0` and the pc moves on. The typed channel is the spec's decision D12 (log
entry 9); that a held step answers the same state is log entry 4's reading. -/
def Obligations.ReadServiceWaitsForInput : Prop :=
  ∀ (s : State) (n : Word) (ns : List Word), s.runState = .running → s.pc < s.nI → decode (s.imem s.pc) = .ok .syscall →
    S (s.readReg 2) = 5 → s.inp = [] →
    step s = .next s ∧
    ∃ t, step (s.supplyInput (n :: ns)) = .next t ∧ t.readReg 2 = n ∧ (∀ r, r ≠ 2 → t.readReg r = s.readReg r) ∧
      t.inp = ns ∧ t.pc = s.pc + 1 ∧ t.out = s.out ∧ SameMemory s t

/-- R102: an executed instruction emits one event, its index and word, with a snapshot of all 34 registers and all `nW` data
words after its writes exactly when the run continues; a `DecodeError` emits none. -/
def Obligations.StepEmitsOneEvent : Prop :=
  ∀ s t : State, s.runState = .running → s.pc < s.nI → step s = .next t →
    (supported (s.imem s.pc) = false → t.trace = s.trace) ∧
    (∀ i, decode (s.imem s.pc) = .ok i → heldForInput i s = false →
      ∃ snap, t.trace = s.trace ++ [{ pc := s.pc, word := s.imem s.pc, snapshot := snap }] ∧
        (t.runState ≠ .running → snap = none) ∧
        (t.runState = .running → ∃ p, snap = some p ∧ p.regs = t.regs ∧ p.data.length = t.nW ∧
          ∀ (k : Nat) (h : k < p.data.length), p.data[k] = t.dmem k))

/-- R70: after an instruction that executed without fault the run is `Halted(Normal)` if it was a `syscall` with `$v0 = 10`
at dispatch or the updated pc is at or beyond `nI`, which it can only be at; otherwise it remains `Running` and, unless the
step was held (R85), a snapshot of the register file and the data memory is appended to the trace. That the pc can only be
at `nI` is the spec's derivation in R70. -/
def Obligations.HaltCheckAfterExecution : Prop :=
  ∀ (s t : State) (i : Instr), s.runState = .running → s.pc < s.nI → decode (s.imem s.pc) = .ok i →
    step s = .next t → (∀ f, t.runState ≠ .haltedFault f) →
    (t.runState = .haltedNormal ↔ (i = .syscall ∧ S (s.readReg 2) = 10) ∨ t.nI ≤ t.pc) ∧
    (t.runState = .running ↔ ¬ ((i = .syscall ∧ S (s.readReg 2) = 10) ∨ t.nI ≤ t.pc)) ∧
    (t.nI ≤ t.pc → t.pc = t.nI) ∧
    (heldForInput i s = false → t.runState = .running →
      t.trace = s.trace ++ [{ pc := s.pc, word := s.imem s.pc, snapshot := some { regs := t.regs, data := t.dataWords } }])

/-- The pc after a step (the table of R21, R69): a taken branch to its own index plus the displacement, a jump to its field,
every other completed instruction to `pc + 1`, a faulting one nowhere. -/
def Obligations.PcMovesByTheTable : Prop :=
  ∀ (s t : State) (i : Instr), s.runState = .running → s.pc < s.nI → decode (s.imem s.pc) = .ok i →
    heldForInput i s = false → step s = .next t →
    ((∃ f, t.runState = .haltedFault f) → t.pc = s.pc) ∧
    ((∀ f, t.runState ≠ .haltedFault f) → (t.pc : Int) = pcAfter i s)

/-- R65: after any step of any state the machine is halted or `pc < nI`, so the next fetch stays inside `imem`. -/
def Obligations.RunningPcStaysInProgram : Prop :=
  ∀ s t : State, step s = .next t → t.runState = .running → t.pc < t.nI

/-- R107: a fault entered by a step leaves every register, every word, both channels and the pc as they were, records itself
in the run state, adds at most the header to the trace, and no step follows; a launch-time fault leaves the reset state. The
unchanged pc is the spec's decision D18 (log entry 16), the form of "no step" log entry 2's. -/
def Obligations.FaultsArePrecise : Prop :=
  (∀ (s t : State) (f : RunFault), step s = .next t → t.runState = .haltedFault f →
    t = { s with runState := .haltedFault f, trace := t.trace } ∧
    (t.trace = s.trace ∨ t.trace = s.trace ++ [{ pc := s.pc, word := s.imem s.pc, snapshot := none }]) ∧
    t.diagnostic = some f ∧ step t = .fault .noStepWhenHalted) ∧
  (∀ (cfg : Config) (img : ProgramImage) (inp : List Word) (t : State) (f : RunFault), launch cfg img inp = .next t →
    t.runState = .haltedFault f → t = { resetState cfg img inp with runState := .haltedFault f })

/-- R106: which instruction raises which fault, its cause and the value it records; no other instruction can fault. -/
def Obligations.FaultCausesByInstruction : Prop :=
  ∀ (i : Instr) (s t : State) (f : RunFault), s.runState = .running → exec i s = .next t → t.runState = .haltedFault f →
    (∃ rs rt, i = .div rs rt ∧ f = .arithmeticFault ∧
      (S (s.readField rt) = 0 ∨
        (s.config.divOverflow = .fault ∧ S (s.readField rs) = -(2 ^ 31) ∧ S (s.readField rt) = -1))) ∨
    (∃ a : Int, ((∃ rs rt imm, ((i = .beq rs rt imm ∧ s.readField rs = s.readField rt) ∨
          (i = .bne rs rt imm ∧ s.readField rs ≠ s.readField rt)) ∧ a = (s.pc : Int) + imm.toInt) ∨
        (∃ adr : AddressField, i = .j adr ∧ a = (adr.toNat : Int))) ∧
      ((f = .controlFlowFault a .inData ∧ (s.nI : Int) ≤ a ∧ a < (s.nI : Int) + s.nW) ∨
        (f = .controlFlowFault a .illegal ∧ (a < 0 ∨ (s.nI : Int) + s.nW ≤ a)))) ∨
    (∃ rt rs imm, (i = .lw rt rs imm ∨ i = .sw rt rs imm) ∧ f = .memoryFault (s.effectiveAddress rs imm) ∧
      ¬ ((s.nI : Int) ≤ s.effectiveAddress rs imm ∧ s.effectiveAddress rs imm < (s.nI : Int) + s.nW))

/-- No step changes an instruction word, a count or a parameter (R26, R45). -/
def Obligations.StepKeepsProgramAndCounts : Prop :=
  ∀ s t : State, step s = .next t → t.nI = s.nI ∧ t.nW = s.nW ∧ t.config = s.config ∧ ∀ i, i < s.nI → t.imem i = s.imem i

/-- A word of memory changes in a step only by a `sw` whose effective address it is, inside the data region (R27, R37). -/
def Obligations.OnlyStoresChangeMemory : Prop :=
  ∀ (s t : State) (a : Nat), step s = .next t → t.mem.read a ≠ s.mem.read a →
    ∃ rt rs imm, decode (s.imem s.pc) = .ok (.sw rt rs imm) ∧ (a : Int) = s.effectiveAddress rs imm ∧
      s.nI ≤ a ∧ a < s.nI + s.nW

/-- The output only grows, by the signed value of `$a0` and by service 1 alone (R100); the input only loses its first
integer, to service 5 alone (R101); the trace only grows (R102). -/
def Obligations.ChannelsOnlyMoveForward : Prop :=
  ∀ s t : State, step s = .next t →
    (t.out = s.out ∨ (t.out = s.out ++ [S (s.readReg 4)] ∧ decode (s.imem s.pc) = .ok .syscall ∧ S (s.readReg 2) = 1)) ∧
    (t.inp = s.inp ∨ (s.inp = t.readReg 2 :: t.inp ∧ decode (s.imem s.pc) = .ok .syscall ∧ S (s.readReg 2) = 5)) ∧
    (t.trace = s.trace ∨ ∃ e, t.trace = s.trace ++ [e])

/-- LO and HI hold their value except over a `mult` or a `div` that completes (R20). -/
def Obligations.OnlyMultAndDivWriteHiLo : Prop :=
  ∀ s t : State, step s = .next t →
    (t.readReg regLO = s.readReg regLO ∧ t.readReg regHI = s.readReg regHI) ∨
    ∃ rs rt, (decode (s.imem s.pc) = .ok (.mult rs rt) ∨ decode (s.imem s.pc) = .ok (.div rs rt)) ∧
      ∀ f, t.runState ≠ .haltedFault f

/-- Register 0 is never written: no instruction from any state, and no step, changes what it reads (R17). -/
def Obligations.RegisterZeroIsNeverWritten : Prop :=
  (∀ (i : Instr) (s t : State), exec i s = .next t → t.readReg 0 = s.readReg 0) ∧
  (∀ s t : State, step s = .next t → t.readReg 0 = s.readReg 0)

/-- The frame of registers (the write column of R19): an instruction changes no register that R19 does not list for it, and a
faulting one changes none. -/
def Obligations.OnlyListedRegistersAreWritten : Prop :=
  ∀ (i : Instr) (s t : State), exec i s = .next t →
    (∀ r, r ∉ writeSet i s → t.readReg r = s.readReg r) ∧
    (∀ f, s.runState = .running → t.runState = .haltedFault f → ∀ r, t.readReg r = s.readReg r)

/-- The read column of R19: two states that differ in one register an instruction does not read give results that differ in
that register at most. -/
def Obligations.UnreadRegistersDoNotMatter : Prop :=
  ∀ (i : Instr) (s t u : State) (r : RegIndex) (v : Word), r ∉ readSet i s → exec i s = .next t →
    exec i (s.poke r v) = .next u → u.poke r 0 = t.poke r 0

/-! ## Memory -/

/-- A word written is read back and no other word changes, in a canonical memory, which stays canonical (R42; the form is
log entry 5's). -/
def Obligations.MemoryReadAfterWrite : Prop :=
  ∀ (m : Memory) (a b : Nat) (v : Word), m.wf →
    (m.write a v).wf ∧ (m.write a v).read b = if b = a then v else m.read b

/-- Canonical memories that read the same everywhere are the same list (log entry 5). -/
def Obligations.CanonicalMemoriesAreEqual : Prop :=
  ∀ m n : Memory, m.wf → n.wf → (∀ a, m.read a = n.read a) → m = n

/-! ## Three-register ALU and add immediate -/

/-- R74: `addu` is opcode 0 funct 0x21; it writes the sum modulo `2^32` to `rd` and raises no fault (the
wrap is the spec's decision D4, log entry 16). -/
def Obligations.AdduAddsModulo : Prop :=
  (∀ w, opcodeOf w = 0 → functOf w = 0x21 → decode w = .ok (.addu (rdOf w) (rsOf w) (rtOf w))) ∧
  ∀ (rd rs rt : RegField) (s : State), ∃ v : Word,
    (v.toNat : Int) = (S (s.readField rs) + S (s.readField rt)) % 2 ^ 32 ∧
    WritesOneRegister (.addu rd rs rt) s (regOf rd) v

/-- R75: `and` is opcode 0 funct 0x24; bit by bit. -/
def Obligations.AndIsBitwise : Prop :=
  (∀ w, opcodeOf w = 0 → functOf w = 0x24 → decode w = .ok (.and (rdOf w) (rsOf w) (rtOf w))) ∧
  ∀ (rd rs rt : RegField) (s : State), ∃ v : Word,
    (∀ k, v.getLsbD k = ((s.readField rs).getLsbD k && (s.readField rt).getLsbD k)) ∧
    WritesOneRegister (.and rd rs rt) s (regOf rd) v

/-- R76: `or` is opcode 0 funct 0x25; bit by bit. -/
def Obligations.OrIsBitwise : Prop :=
  (∀ w, opcodeOf w = 0 → functOf w = 0x25 → decode w = .ok (.or (rdOf w) (rsOf w) (rtOf w))) ∧
  ∀ (rd rs rt : RegField) (s : State), ∃ v : Word,
    (∀ k, v.getLsbD k = ((s.readField rs).getLsbD k || (s.readField rt).getLsbD k)) ∧
    WritesOneRegister (.or rd rs rt) s (regOf rd) v

/-- R77: `slt` is opcode 0 funct 0x2A; 1 if signed less, else 0. -/
def Obligations.SltComparesSigned : Prop :=
  (∀ w, opcodeOf w = 0 → functOf w = 0x2A → decode w = .ok (.slt (rdOf w) (rsOf w) (rtOf w))) ∧
  ∀ (rd rs rt : RegField) (s : State),
    (S (s.readField rs) < S (s.readField rt) → WritesOneRegister (.slt rd rs rt) s (regOf rd) 1) ∧
    (S (s.readField rt) ≤ S (s.readField rs) → WritesOneRegister (.slt rd rs rt) s (regOf rd) 0)

/-- R78: `subu` is opcode 0 funct 0x23; it writes `rs` minus `rt` modulo `2^32` and raises no fault
(decision D4). -/
def Obligations.SubuSubtractsModulo : Prop :=
  (∀ w, opcodeOf w = 0 → functOf w = 0x23 → decode w = .ok (.subu (rdOf w) (rsOf w) (rtOf w))) ∧
  ∀ (rd rs rt : RegField) (s : State), ∃ v : Word,
    (v.toNat : Int) = (S (s.readField rs) - S (s.readField rt)) % 2 ^ 32 ∧
    WritesOneRegister (.subu rd rs rt) s (regOf rd) v

/-- R87: `addiu` is opcode 0x09; it adds the zero-extended immediate modulo `2^32` and raises no fault (the wrap is
decision D4). -/
def Obligations.AddiuZeroExtends : Prop :=
  (∀ w, opcodeOf w = 0x09 → decode w = .ok (.addiu (rtOf w) (rsOf w) (immOf w))) ∧
  ∀ (rt rs : RegField) (imm : ImmField) (s : State), ∃ v : Word,
    (v.toNat : Int) = (S (s.readField rs) + (imm.toNat : Int)) % 2 ^ 32 ∧
    WritesOneRegister (.addiu rt rs imm) s (regOf rt) v

/-! ## Multiply, divide, HI and LO -/

/-- R80: `div` is opcode 0 funct 0x1A; a zero divisor faults; `-2^31 / -1` faults or wraps by `DIV_OVERFLOW`; otherwise LO is
the quotient toward zero and HI the remainder, of the dividend's sign and smaller than the divisor. The overflow case is the
spec's decision D5. -/
def Obligations.DivTruncatesOrFaults : Prop :=
  (∀ w, opcodeOf w = 0 → functOf w = 0x1A → decode w = .ok (.div (rsOf w) (rtOf w))) ∧
  ∀ (rs rt : RegField) (s : State),
    let a := S (s.readField rs)
    let b := S (s.readField rt)
    (b = 0 → RaisesFault (.div rs rt) s .arithmeticFault) ∧
    (a = -(2 ^ 31) → b = -1 → s.config.divOverflow = .fault → RaisesFault (.div rs rt) s .arithmeticFault) ∧
    (a = -(2 ^ 31) → b = -1 → s.config.divOverflow = .wrap → WritesHiLo (.div rs rt) s 0 0x80000000#32) ∧
    (b ≠ 0 → ¬ (a = -(2 ^ 31) ∧ b = -1) → ∃ q r : Int, q = a.sign * b.sign * ((a.natAbs / b.natAbs : Nat) : Int) ∧
      a = q * b + r ∧ r.natAbs < b.natAbs ∧ (r = 0 ∨ r.sign = a.sign) ∧
      ∃ hi lo : Word, S hi = r ∧ S lo = q ∧ WritesHiLo (.div rs rt) s hi lo)

/-- R81: `mult` is opcode 0 funct 0x18; HI and LO together are the exact signed 64-bit product, with no fault. -/
def Obligations.MultGivesExactProduct : Prop :=
  (∀ w, opcodeOf w = 0 → functOf w = 0x18 → decode w = .ok (.mult (rsOf w) (rtOf w))) ∧
  ∀ (rs rt : RegField) (s : State), ∃ hi lo : Word,
    (hi ++ lo : BitVec 64).toInt = S (s.readField rs) * S (s.readField rt) ∧ WritesHiLo (.mult rs rt) s hi lo

/-- R82: `mfhi` is opcode 0 funct 0x10; it copies HI to `rd`, HI itself unchanged; from the reset state it copies 0. -/
def Obligations.MfhiCopiesHi : Prop :=
  (∀ w, opcodeOf w = 0 → functOf w = 0x10 → decode w = .ok (.mfhi (rdOf w))) ∧
  (∀ (rd : RegField) (s : State), WritesOneRegister (.mfhi rd) s (regOf rd) (s.readReg 33)) ∧
  ∀ (rd : RegField) (cfg : Config) (img : ProgramImage) (inp : List Word),
    WritesOneRegister (.mfhi rd) (resetState cfg img inp) (regOf rd) 0

/-- R83: `mflo` is opcode 0 funct 0x12; it copies LO to `rd`, LO itself unchanged; from the reset state it copies 0. -/
def Obligations.MfloCopiesLo : Prop :=
  (∀ w, opcodeOf w = 0 → functOf w = 0x12 → decode w = .ok (.mflo (rdOf w))) ∧
  (∀ (rd : RegField) (s : State), WritesOneRegister (.mflo rd) s (regOf rd) (s.readReg 32)) ∧
  ∀ (rd : RegField) (cfg : Config) (img : ProgramImage) (inp : List Word),
    WritesOneRegister (.mflo rd) (resetState cfg img inp) (regOf rd) 0

/-! ## System -/

/-- R84, R85, R86: `syscall` is opcode 0 funct 0x0C; service 1 appends the signed `$a0` to the output, service 5 takes the
next input into `$v0` or holds, service 10 ends the run normally, every other `$v0` only advances the pc; nothing faults.
The full comparison of `$v0` is the spec's decision D23, the pc's advance D9. That a held service 5 answers the same state is
log entry 4's reading of R85; that `exec` itself enters `Halted(Normal)` is log entry 14's. -/
def Obligations.SyscallServices : Prop :=
  (∀ w, opcodeOf w = 0 → functOf w = 0x0C → decode w = .ok .syscall) ∧
  ∀ s : State,
    (S (s.readReg 2) = 1 → exec .syscall s = .next { s with out := s.out ++ [S (s.readReg 4)], pc := s.pc + 1 }) ∧
    (S (s.readReg 2) = 5 → s.inp = [] → exec .syscall s = .next s) ∧
    (∀ n ns, S (s.readReg 2) = 5 → s.inp = n :: ns →
      ∃ t, exec .syscall s = .next t ∧ (∀ r, t.readReg r = if r = 2 then n else s.readReg r) ∧ t.pc = s.pc + 1 ∧
        SameMemory s t ∧ SameSurroundings { s with inp := ns } t) ∧
    (S (s.readReg 2) = 10 → exec .syscall s = .next { s with runState := .haltedNormal, pc := s.pc + 1 }) ∧
    (S (s.readReg 2) ≠ 1 → S (s.readReg 2) ≠ 5 → S (s.readReg 2) ≠ 10 →
      exec .syscall s = .next { s with pc := s.pc + 1 })

/-! ## Control transfer -/

/-- R90 (with the target of R88 and the check of R89): `beq` is opcode 0x04; a target below 0 is `Illegal` by the spec's
decision D7. -/
def Obligations.BeqBranchesWhenEqual : Prop :=
  (∀ w, opcodeOf w = 0x04 → decode w = .ok (.beq (rsOf w) (rtOf w) (immOf w))) ∧
  ∀ (rs rt : RegField) (imm : ImmField) (s : State),
    let t := (s.pc : Int) + imm.toInt
    (s.readField rs ≠ s.readField rt → exec (.beq rs rt imm) s = .next { s with pc := s.pc + 1 }) ∧
    (s.readField rs = s.readField rt → 0 ≤ t → t < s.nI → exec (.beq rs rt imm) s = .next { s with pc := t.toNat }) ∧
    (s.readField rs = s.readField rt → s.nI ≤ t → t < (s.nI : Int) + s.nW →
      RaisesFault (.beq rs rt imm) s (.controlFlowFault t .inData)) ∧
    (s.readField rs = s.readField rt → (t < 0 ∨ (s.nI : Int) + s.nW ≤ t) →
      RaisesFault (.beq rs rt imm) s (.controlFlowFault t .illegal))

/-- R91 (with the target of R88 and the check of R89): `bne` is opcode 0x05; a target below 0 is `Illegal` by decision
D7. -/
def Obligations.BneBranchesWhenDifferent : Prop :=
  (∀ w, opcodeOf w = 0x05 → decode w = .ok (.bne (rsOf w) (rtOf w) (immOf w))) ∧
  ∀ (rs rt : RegField) (imm : ImmField) (s : State),
    let t := (s.pc : Int) + imm.toInt
    (s.readField rs = s.readField rt → exec (.bne rs rt imm) s = .next { s with pc := s.pc + 1 }) ∧
    (s.readField rs ≠ s.readField rt → 0 ≤ t → t < s.nI → exec (.bne rs rt imm) s = .next { s with pc := t.toNat }) ∧
    (s.readField rs ≠ s.readField rt → s.nI ≤ t → t < (s.nI : Int) + s.nW →
      RaisesFault (.bne rs rt imm) s (.controlFlowFault t .inData)) ∧
    (s.readField rs ≠ s.readField rt → (t < 0 ∨ (s.nI : Int) + s.nW ≤ t) →
      RaisesFault (.bne rs rt imm) s (.controlFlowFault t .illegal))

/-- R92 (with the check of R89): `j` is opcode 0x02; the target is the 26-bit field itself, and no register is written. -/
def Obligations.JumpGoesToItsField : Prop :=
  (∀ w, opcodeOf w = 0x02 → decode w = .ok (.j (addressOf w))) ∧
  ∀ (a : AddressField) (s : State),
    (a.toNat < s.nI → exec (.j a) s = .next { s with pc := a.toNat }) ∧
    (s.nI ≤ a.toNat → a.toNat < s.nI + s.nW → RaisesFault (.j a) s (.controlFlowFault a.toNat .inData)) ∧
    (s.nI + s.nW ≤ a.toNat → RaisesFault (.j a) s (.controlFlowFault a.toNat .illegal))

/-- A transfer to itself never ends the run (R72): whatever the state, a `j` to its own index is taken again at every
step. -/
def Obligations.JumpToItselfNeverEnds : Prop :=
  ∀ (s : State) (a : AddressField) (n : Nat), s.runState = .running → s.pc < s.nI → decode (s.imem s.pc) = .ok (.j a) →
    a.toNat = s.pc →
    ∃ t, Sys2Proof.core.run n s = .next t ∧ t.runState = .running ∧ t.pc = s.pc ∧ t.regs = s.regs ∧ t.mem = s.mem ∧
      t.trace.length = s.trace.length + n

/-! ## Loads and stores -/

/-- R94: the effective address is `S(x[rs]) + sext_16(imm)` exactly, in `-2^31 - 32768 .. 2^31 + 32766`; under the launch
bound a 32-bit wrap-around address passes the bounds check for the same inputs, and is then the same address. Exactness is
the spec's decision D6. -/
def Obligations.EffectiveAddressIsExact : Prop :=
  ∀ (s : State) (rs : RegField) (imm : ImmField),
    s.effectiveAddress rs imm = S (s.readField rs) + imm.toInt ∧
    -(2 ^ 31) - 32768 ≤ s.effectiveAddress rs imm ∧ s.effectiveAddress rs imm ≤ 2 ^ 31 + 32766 ∧
    (s.nI + s.nW ≤ 2 ^ 31 - 32768 →
      let wrapped := S (wrap32 (s.effectiveAddress rs imm))
      (s.inDataRegion wrapped = s.inDataRegion (s.effectiveAddress rs imm)) ∧
      (s.inDataRegion (s.effectiveAddress rs imm) = true → wrapped = s.effectiveAddress rs imm))

/-- R95: `lw` is opcode 0x23; it loads `dmem[EA - nI]` into `rt`, or raises `MemoryFault(EA)` outside the data region,
whatever `rt` is (decision D22). -/
def Obligations.LwLoadsOrFaults : Prop :=
  (∀ w, opcodeOf w = 0x23 → decode w = .ok (.lw (rtOf w) (rsOf w) (immOf w))) ∧
  ∀ (rt rs : RegField) (imm : ImmField) (s : State),
    let ea := s.effectiveAddress rs imm
    ea = S (s.readField rs) + imm.toInt ∧
    (s.nI ≤ ea → ea < (s.nI : Int) + s.nW →
      WritesOneRegister (.lw rt rs imm) s (regOf rt) (s.dmem (ea - s.nI).toNat)) ∧
    (ea < s.nI ∨ (s.nI : Int) + s.nW ≤ ea → RaisesFault (.lw rt rs imm) s (.memoryFault ea))

/-- R96: `sw` is opcode 0x2B; it stores `x[rt]` at `dmem[EA - nI]` and every other word of memory stays, or raises
`MemoryFault(EA)` outside the data region. The memory is canonical, which every step keeps (`StepKeepsInvariant`). -/
def Obligations.SwStoresOrFaults : Prop :=
  (∀ w, opcodeOf w = 0x2B → decode w = .ok (.sw (rtOf w) (rsOf w) (immOf w))) ∧
  ∀ (rt rs : RegField) (imm : ImmField) (s : State), s.mem.wf →
    let ea := s.effectiveAddress rs imm
    ea = S (s.readField rs) + imm.toInt ∧
    (s.nI ≤ ea → ea < (s.nI : Int) + s.nW →
      ∃ t, exec (.sw rt rs imm) s = .next t ∧ t.dmem (ea - s.nI).toNat = s.readField rt ∧
        (∀ a : Nat, (a : Int) ≠ ea → t.mem.read a = s.mem.read a) ∧
        (∀ r, t.readReg r = s.readReg r) ∧ t.pc = s.pc + 1 ∧ SameSurroundings s t) ∧
    (ea < s.nI ∨ (s.nI : Int) + s.nW ≤ ea → RaisesFault (.sw rt rs imm) s (.memoryFault ea))

/-- R97: the four boundary addresses, for both `lw` and `sw`: `nI` and `nI + nW - 1` succeed, `nI - 1` and `nI + nW`
fault. -/
def Obligations.LoadStoreBoundaries : Prop :=
  ∀ (rt rs : RegField) (imm : ImmField) (s : State),
    let ea := s.effectiveAddress rs imm
    ((0 < s.nW ∧ (ea = s.nI ∨ ea = (s.nI : Int) + s.nW - 1)) →
      (∃ t, exec (.lw rt rs imm) s = .next t ∧ t.pc = s.pc + 1 ∧ t.runState = s.runState) ∧
      (∃ t, exec (.sw rt rs imm) s = .next t ∧ t.pc = s.pc + 1 ∧ t.runState = s.runState)) ∧
    ((ea = (s.nI : Int) - 1 ∨ ea = (s.nI : Int) + s.nW) →
      RaisesFault (.lw rt rs imm) s (.memoryFault ea) ∧ RaisesFault (.sw rt rs imm) s (.memoryFault ea))

/-- A `lw` right after a `sw` to the same address returns the stored pattern, a negative one included, whichever registers
and displacements name the address (R28, R42). -/
def Obligations.LoadAfterStoreReturnsThePattern : Prop :=
  ∀ (s t u : State) (rt rs rd rb : RegField) (imm disp : ImmField), s.mem.wf → s.runState = .running → rd ≠ 0 →
    exec (.sw rt rs imm) s = .next t → t.runState = .running → t.effectiveAddress rb disp = s.effectiveAddress rs imm →
    exec (.lw rd rb disp) t = .next u → u.readField rd = s.readField rt ∧ u.runState = .running

/-! ## The trace as the host sees it -/

/-- Every event of a launched run is shown with its own index, the text of the instruction of the program there in the radix
of the launch (R10, R61), and its snapshot's values in order under the 34 register names and the `nW` unified addresses
(R102). -/
def Obligations.ShownTraceFollowsTextRadix : Prop :=
  ∀ (cfg : Config) (img : ProgramImage) (inp : List Word) (s t : State), launch cfg img inp = .next s → Reachable s t →
    t.shownTrace.length = t.trace.length ∧
    ∀ e ∈ t.trace, ∃ i, decode (t.imem e.pc) = .ok i ∧ (t.showEvent e).pc = e.pc ∧
      (t.showEvent e).text = some (showInstr cfg.textRadix i) ∧
      (e.snapshot = none → (t.showEvent e).snapshot = none) ∧
      ∀ p, e.snapshot = some p → ∃ l, (t.showEvent e).snapshot = some l ∧
        l.map Prod.fst = snapshotLabels img.numInstructions img.numWords ∧ l.map Prod.snd = p.regs.toList ++ p.data

/-- `TEXT_RADIX` affects trace text only (R10): a launch, and a step of any state, do the same under another radix. -/
def Obligations.TextRadixAffectsTextOnly : Prop :=
  (∀ (cfg : Config) (img : ProgramImage) (inp : List Word) (s : State) (r : TextRadix), launch cfg img inp = .next s →
    launch { cfg with textRadix := r } img inp = .next (s.withTextRadix r)) ∧
  (∀ (s t : State) (r : TextRadix), step s = .next t → step (s.withTextRadix r) = .next (t.withTextRadix r)) ∧
  (∀ s : State, ∀ f r, step s = .fault f → step (s.withTextRadix r) = .fault f)
end

