-- ==== Sys2Proof/Laws/Decode.lean ====
section
/-! SUPPORT. The fields of a word built from fields (spec `30_encoding.md` rules R50 to R52). -/

namespace Sys2Proof

/-! ## R-format -/

theorem opcodeOf_wordR (rs rt rd : RegField) (shamt : BitVec 5) (funct : BitVec 6) :
    opcodeOf (wordR rs rt rd shamt funct) = 0 := by
  unfold opcodeOf wordR
  ext k hk
  simp only [BitVec.getElem_extractLsb', BitVec.getLsbD_append]
  interval_cases k <;> simp

theorem rsOf_wordR (rs rt rd : RegField) (shamt : BitVec 5) (funct : BitVec 6) :
    rsOf (wordR rs rt rd shamt funct) = rs := by
  unfold rsOf wordR
  ext k hk
  simp only [BitVec.getElem_extractLsb', BitVec.getLsbD_append]
  interval_cases k <;> simp

theorem rtOf_wordR (rs rt rd : RegField) (shamt : BitVec 5) (funct : BitVec 6) :
    rtOf (wordR rs rt rd shamt funct) = rt := by
  unfold rtOf wordR
  ext k hk
  simp only [BitVec.getElem_extractLsb', BitVec.getLsbD_append]
  interval_cases k <;> simp

theorem rdOf_wordR (rs rt rd : RegField) (shamt : BitVec 5) (funct : BitVec 6) :
    rdOf (wordR rs rt rd shamt funct) = rd := by
  unfold rdOf wordR
  ext k hk
  simp only [BitVec.getElem_extractLsb', BitVec.getLsbD_append]
  interval_cases k <;> simp

theorem shamtOf_wordR (rs rt rd : RegField) (shamt : BitVec 5) (funct : BitVec 6) :
    shamtOf (wordR rs rt rd shamt funct) = shamt := by
  unfold shamtOf wordR
  ext k hk
  simp only [BitVec.getElem_extractLsb', BitVec.getLsbD_append]
  interval_cases k <;> simp

theorem functOf_wordR (rs rt rd : RegField) (shamt : BitVec 5) (funct : BitVec 6) :
    functOf (wordR rs rt rd shamt funct) = funct := by
  unfold functOf wordR
  ext k hk
  simp only [BitVec.getElem_extractLsb', BitVec.getLsbD_append]
  interval_cases k <;> simp

/-- An R-format word under the R-format mask keeps its funct alone. -/
theorem wordR_mask (rs rt rd : RegField) (shamt : BitVec 5) (funct : BitVec 6) :
    wordR rs rt rd shamt funct &&& 0xFC00003F#32 = funct.setWidth 32 := by
  unfold wordR
  apply BitVec.eq_of_getLsbD_eq
  intro k hk
  simp only [BitVec.getLsbD_and, BitVec.getLsbD_append, BitVec.getLsbD_setWidth]
  interval_cases k <;> simp

/-! ## I-format -/

theorem opcodeOf_wordI (op : BitVec 6) (rs rt : RegField) (imm : ImmField) :
    opcodeOf (wordI op rs rt imm) = op := by
  unfold opcodeOf wordI
  ext k hk
  simp only [BitVec.getElem_extractLsb', BitVec.getLsbD_append]
  interval_cases k <;> simp

theorem rsOf_wordI (op : BitVec 6) (rs rt : RegField) (imm : ImmField) :
    rsOf (wordI op rs rt imm) = rs := by
  unfold rsOf wordI
  ext k hk
  simp only [BitVec.getElem_extractLsb', BitVec.getLsbD_append]
  interval_cases k <;> simp

theorem rtOf_wordI (op : BitVec 6) (rs rt : RegField) (imm : ImmField) :
    rtOf (wordI op rs rt imm) = rt := by
  unfold rtOf wordI
  ext k hk
  simp only [BitVec.getElem_extractLsb', BitVec.getLsbD_append]
  interval_cases k <;> simp

theorem immOf_wordI (op : BitVec 6) (rs rt : RegField) (imm : ImmField) :
    immOf (wordI op rs rt imm) = imm := by
  unfold immOf wordI
  ext k hk
  simp only [BitVec.getElem_extractLsb', BitVec.getLsbD_append]
  interval_cases k <;> simp

/-- An I-format word under the opcode mask keeps its opcode alone. -/
theorem wordI_mask (op : BitVec 6) (rs rt : RegField) (imm : ImmField) :
    wordI op rs rt imm &&& 0xFC000000#32 = op.setWidth 32 <<< 26 := by
  unfold wordI
  apply BitVec.eq_of_getLsbD_eq
  intro k hk
  simp only [BitVec.getLsbD_and, BitVec.getLsbD_append, BitVec.getLsbD_shiftLeft, BitVec.getLsbD_setWidth]
  interval_cases k <;> simp

/-! ## J-format -/

theorem opcodeOf_wordJ (op : BitVec 6) (address : AddressField) :
    opcodeOf (wordJ op address) = op := by
  unfold opcodeOf wordJ
  ext k hk
  simp only [BitVec.getElem_extractLsb', BitVec.getLsbD_append]
  interval_cases k <;> simp

theorem addressOf_wordJ (op : BitVec 6) (address : AddressField) :
    addressOf (wordJ op address) = address := by
  unfold addressOf wordJ
  ext k hk
  simp only [BitVec.getElem_extractLsb', BitVec.getLsbD_append]
  interval_cases k <;> simp

/-- A J-format word under the opcode mask keeps its opcode alone. -/
theorem wordJ_mask (op : BitVec 6) (address : AddressField) :
    wordJ op address &&& 0xFC000000#32 = op.setWidth 32 <<< 26 := by
  unfold wordJ
  apply BitVec.eq_of_getLsbD_eq
  intro k hk
  simp only [BitVec.getLsbD_and, BitVec.getLsbD_append, BitVec.getLsbD_shiftLeft, BitVec.getLsbD_setWidth]
  interval_cases k <;> simp

/-! ## A word from its fields -/

theorem wordR_of_fields (w : Word) : opcodeOf w ++ rsOf w ++ rtOf w ++ rdOf w ++ shamtOf w ++ functOf w = w := by
  unfold opcodeOf rsOf rtOf rdOf shamtOf functOf
  apply BitVec.eq_of_getLsbD_eq
  intro k hk
  simp only [BitVec.getLsbD_append, BitVec.getLsbD_extractLsb']
  interval_cases k <;> simp

theorem wordI_of_fields (w : Word) : opcodeOf w ++ rsOf w ++ rtOf w ++ immOf w = w := by
  unfold opcodeOf rsOf rtOf immOf
  apply BitVec.eq_of_getLsbD_eq
  intro k hk
  simp only [BitVec.getLsbD_append, BitVec.getLsbD_extractLsb']
  interval_cases k <;> simp

theorem wordJ_of_fields (w : Word) : opcodeOf w ++ addressOf w = w := by
  unfold opcodeOf addressOf
  apply BitVec.eq_of_getLsbD_eq
  intro k hk
  simp only [BitVec.getLsbD_append, BitVec.getLsbD_extractLsb']
  interval_cases k <;> simp

/-! ## Masks -/

/-- Words that agree under a mask agree in every bit the mask has. -/
theorem getLsbD_eq_of_mask {w v m : Word} (h : w &&& m = v &&& m) {k : Nat} (hk : m.getLsbD k = true) :
    w.getLsbD k = v.getLsbD k := by
  have := congrArg (fun x : Word => x.getLsbD k) h
  simpa [BitVec.getLsbD_and, hk] using this

/-- Words that agree under a mask agree in every field the mask covers. -/
theorem extractLsb'_eq_of_mask {w v m : Word} (h : w &&& m = v &&& m) (lo n : Nat)
    (hm : ∀ k, k < n → m.getLsbD (lo + k) = true) : w.extractLsb' lo n = v.extractLsb' lo n := by
  apply BitVec.eq_of_getLsbD_eq
  intro k hk
  simp [hk, getLsbD_eq_of_mask h (hm k hk)]

/-- The R-format mask keeps the opcode and the funct. -/
theorem and_maskR (w : Word) :
    w &&& 0xFC00003F#32 = (opcodeOf w).setWidth 32 <<< 26 ||| (functOf w).setWidth 32 := by
  unfold opcodeOf functOf
  apply BitVec.eq_of_getLsbD_eq
  intro k hk
  simp only [BitVec.getLsbD_and, BitVec.getLsbD_or, BitVec.getLsbD_shiftLeft, BitVec.getLsbD_setWidth,
    BitVec.getLsbD_extractLsb']
  interval_cases k <;> simp

/-- The opcode mask keeps the opcode. -/
theorem and_maskI (w : Word) : w &&& 0xFC000000#32 = (opcodeOf w).setWidth 32 <<< 26 := by
  unfold opcodeOf
  apply BitVec.eq_of_getLsbD_eq
  intro k hk
  simp only [BitVec.getLsbD_and, BitVec.getLsbD_shiftLeft, BitVec.getLsbD_setWidth, BitVec.getLsbD_extractLsb']
  interval_cases k <;> simp

/-! ## What the decoder answers -/

theorem supported_eq_false {w : Word} : supported w = false ↔ ∀ i, decode w ≠ .ok i := by
  unfold supported
  cases decode w <;> simp [Except.isOk, Except.toBool]

/-- Every instruction a word can decode to, with the opcode and funct that select it. -/
theorem decode_cases {w : Word} {i : Instr} (h : decode w = .ok i) :
    (opcodeOf w = 0 ∧
      ((functOf w = 0x21 ∧ i = .addu (rdOf w) (rsOf w) (rtOf w)) ∨ (functOf w = 0x24 ∧ i = .and (rdOf w) (rsOf w) (rtOf w)) ∨
       (functOf w = 0x25 ∧ i = .or (rdOf w) (rsOf w) (rtOf w)) ∨ (functOf w = 0x2A ∧ i = .slt (rdOf w) (rsOf w) (rtOf w)) ∨
       (functOf w = 0x23 ∧ i = .subu (rdOf w) (rsOf w) (rtOf w)) ∨ (functOf w = 0x1A ∧ i = .div (rsOf w) (rtOf w)) ∨
       (functOf w = 0x18 ∧ i = .mult (rsOf w) (rtOf w)) ∨ (functOf w = 0x10 ∧ i = .mfhi (rdOf w)) ∨
       (functOf w = 0x12 ∧ i = .mflo (rdOf w)) ∨ (functOf w = 0x0C ∧ i = .syscall))) ∨
    (opcodeOf w = 0x02 ∧ i = .j (addressOf w)) ∨ (opcodeOf w = 0x04 ∧ i = .beq (rsOf w) (rtOf w) (immOf w)) ∨
    (opcodeOf w = 0x05 ∧ i = .bne (rsOf w) (rtOf w) (immOf w)) ∨
    (opcodeOf w = 0x09 ∧ i = .addiu (rtOf w) (rsOf w) (immOf w)) ∨
    (opcodeOf w = 0x23 ∧ i = .lw (rtOf w) (rsOf w) (immOf w)) ∨
    (opcodeOf w = 0x2B ∧ i = .sw (rtOf w) (rsOf w) (immOf w)) := by
  unfold decode at h
  split at h
  · unfold decodeR at h
    split at h <;> first | (cases h; simp_all) | cases h
  all_goals first | (cases h; simp_all) | cases h

end Sys2Proof
end

