-- ==== Sys2Proof/Laws/Memory.lean ====
section
/-! SUPPORT. The laws of the memory: read after write, and every operation keeps the canonical form. -/

namespace Sys2Proof.Machine

/-- An address below every listed one reads as 0. -/
theorem Memory.read_of_below {m : Memory} {a : Nat} (h : ∀ c ∈ m, a < c.1) : m.read a = 0 := by
  induction m with
  | nil => rfl
  | cons c rest ih =>
    obtain ⟨b, w⟩ := c
    have hb : a < b := h (b, w) (by simp)
    simp only [Memory.read, if_neg (Nat.ne_of_lt hb)]
    exact ih fun c hc => h c (by simp [hc])

theorem Memory.read_write_same {m : Memory} (hm : m.wf) (a : Nat) (v : Word) : (m.write a v).read a = v := by
  induction m with
  | nil => by_cases hv : v = 0#32 <;> simp [Memory.write, Memory.read, hv]
  | cons c rest ih =>
    obtain ⟨b, w⟩ := c
    obtain ⟨hp, hz⟩ := hm
    rw [List.pairwise_cons] at hp
    have hrest : Memory.wf rest := ⟨hp.2, fun c hc => hz c (by simp [hc])⟩
    unfold Memory.write
    split
    · next hab =>
      split
      · next hv =>
        rw [hv]
        apply Memory.read_of_below
        intro c hc
        rcases List.mem_cons.mp hc with rfl | hc
        · exact hab
        · exact Nat.lt_trans hab (hp.1 c hc)
      · simp [Memory.read]
    · split
      · next hab =>
        subst hab
        split
        · next hv =>
          rw [hv]
          exact Memory.read_of_below fun c hc => hp.1 c hc
        · simp [Memory.read]
      · next hab => simp only [Memory.read, if_neg hab]; exact ih hrest

theorem Memory.read_write_other (m : Memory) {a b : Nat} (hab : b ≠ a) (v : Word) :
    (m.write a v).read b = m.read b := by
  induction m with
  | nil => by_cases hv : v = 0#32 <;> simp [Memory.write, Memory.read, hv, hab]
  | cons c rest ih =>
    obtain ⟨d, w⟩ := c
    unfold Memory.write
    split
    · split <;> simp [Memory.read, hab]
    · split
      · next had => subst had; split <;> simp [Memory.read, hab]
      · simp only [Memory.read, ih]

theorem Memory.mem_write {m : Memory} {a : Nat} {v : Word} {c : Nat × Word} (h : c ∈ m.write a v) :
    c ∈ m ∨ (c = (a, v) ∧ v ≠ 0) := by
  induction m with
  | nil => by_cases hv : v = 0#32 <;> simp_all [Memory.write]
  | cons d rest ih =>
    obtain ⟨b, w⟩ := d
    unfold Memory.write at h
    split at h
    · split at h
      · exact .inl h
      · next hv => rcases List.mem_cons.mp h with h | h <;> simp_all
    · split at h
      · split at h
        · exact .inl (by simp [h])
        · next hv => rcases List.mem_cons.mp h with h | h <;> simp_all
      · rcases List.mem_cons.mp h with h | h
        · simp [h]
        · rcases ih h with h | h
          · simp [h]
          · exact .inr h

theorem Memory.write_wf {m : Memory} (hm : m.wf) (a : Nat) (v : Word) : (m.write a v).wf := by
  refine ⟨?_, fun c hc => ?_⟩
  · induction m with
    | nil => by_cases hv : v = 0#32 <;> simp [Memory.write, hv]
    | cons d rest ih =>
      obtain ⟨b, w⟩ := d
      obtain ⟨hp, hz⟩ := hm
      have hp' := List.pairwise_cons.mp hp
      have hrest : Memory.wf rest := ⟨hp'.2, fun c hc => hz c (by simp [hc])⟩
      unfold Memory.write
      split
      · next hab =>
        split
        · exact hp
        · refine List.pairwise_cons.mpr ⟨fun c hc => ?_, hp⟩
          rcases List.mem_cons.mp hc with rfl | hc
          · exact hab
          · exact Nat.lt_trans hab (hp'.1 c hc)
      · split
        · next hab =>
          split
          · exact hp'.2
          · exact List.pairwise_cons.mpr ⟨fun c hc => hab ▸ hp'.1 c hc, hp'.2⟩
        · next h1 h2 =>
          refine List.pairwise_cons.mpr ⟨fun c hc => ?_, ih hrest⟩
          rcases Memory.mem_write hc with h | ⟨rfl, -⟩
          · exact hp'.1 c h
          · show b < a; omega
  · rcases Memory.mem_write hc with h | ⟨rfl, hv⟩
    · exact hm.2 c h
    · exact hv

theorem Memory.mem_ofWords {base : Nat} {ws : List Word} {c : Nat × Word} (h : c ∈ Memory.ofWords base ws) :
    base ≤ c.1 ∧ c.1 < base + ws.length ∧ c.2 ≠ 0 := by
  induction ws generalizing base with
  | nil => simp [Memory.ofWords] at h
  | cons w ws ih =>
    unfold Memory.ofWords at h
    simp only [List.length_cons]
    split at h
    · have := ih h; exact ⟨by omega, by omega, this.2.2⟩
    · rcases List.mem_cons.mp h with rfl | h
      · refine ⟨Nat.le_refl _, ?_, ‹_›⟩; show base < _; omega
      · have := ih h; exact ⟨by omega, by omega, this.2.2⟩

theorem Memory.ofWords_wf (base : Nat) (ws : List Word) : (Memory.ofWords base ws).wf := by
  refine ⟨?_, fun c hc => (Memory.mem_ofWords hc).2.2⟩
  induction ws generalizing base with
  | nil => simp [Memory.ofWords]
  | cons w ws ih =>
    unfold Memory.ofWords
    split
    · exact ih _
    · exact List.pairwise_cons.mpr ⟨fun c hc => (Memory.mem_ofWords hc).1, ih _⟩

theorem Memory.read_ofWords (base : Nat) (ws : List Word) (k : Nat) (hk : k < ws.length) :
    (Memory.ofWords base ws).read (base + k) = ws[k] := by
  induction ws generalizing base k with
  | nil => simp at hk
  | cons w ws ih =>
    have hbelow : Memory.read (Memory.ofWords (base + 1) ws) base = 0 :=
      Memory.read_of_below fun c hc => (Memory.mem_ofWords hc).1
    unfold Memory.ofWords
    cases k with
    | zero => split <;> simp_all [Memory.read]
    | succ k =>
      have hk' : k < ws.length := by simpa using hk
      have := ih (base + 1) k hk'
      rw [show base + 1 + k = base + (k + 1) by omega] at this
      split
      · simpa using this
      · simp only [Memory.read, if_neg (show ¬ base + (k + 1) = base by omega)]
        simpa using this

end Sys2Proof.Machine
end

