-- ==== Sys2Proof/Laws/State.lean ====
section
/-! SUPPORT. One lemma per field per named update of State: the field after the update. -/

namespace Sys2Proof.Machine

/-! ## `State.setPc` -/

@[simp] theorem State.setPc_config (s : State) (t : Nat) : (s.setPc t).config = s.config := rfl
@[simp] theorem State.setPc_nI (s : State) (t : Nat) : (s.setPc t).nI = s.nI := rfl
@[simp] theorem State.setPc_nW (s : State) (t : Nat) : (s.setPc t).nW = s.nW := rfl
@[simp] theorem State.setPc_mem (s : State) (t : Nat) : (s.setPc t).mem = s.mem := rfl
@[simp] theorem State.setPc_regs (s : State) (t : Nat) : (s.setPc t).regs = s.regs := rfl
@[simp] theorem State.setPc_pc (s : State) (t : Nat) : (s.setPc t).pc = t := rfl
@[simp] theorem State.setPc_runState (s : State) (t : Nat) : (s.setPc t).runState = s.runState := rfl
@[simp] theorem State.setPc_out (s : State) (t : Nat) : (s.setPc t).out = s.out := rfl
@[simp] theorem State.setPc_inp (s : State) (t : Nat) : (s.setPc t).inp = s.inp := rfl
@[simp] theorem State.setPc_trace (s : State) (t : Nat) : (s.setPc t).trace = s.trace := rfl
@[simp] theorem State.setPc_readReg (s : State) (t : Nat) (q : RegIndex) : (s.setPc t).readReg q = s.readReg q := rfl

/-! ## `State.advance` -/

@[simp] theorem State.advance_config (s : State) : (s.advance).config = s.config := rfl
@[simp] theorem State.advance_nI (s : State) : (s.advance).nI = s.nI := rfl
@[simp] theorem State.advance_nW (s : State) : (s.advance).nW = s.nW := rfl
@[simp] theorem State.advance_mem (s : State) : (s.advance).mem = s.mem := rfl
@[simp] theorem State.advance_regs (s : State) : (s.advance).regs = s.regs := rfl
@[simp] theorem State.advance_pc (s : State) : (s.advance).pc = s.pc + 1 := rfl
@[simp] theorem State.advance_runState (s : State) : (s.advance).runState = s.runState := rfl
@[simp] theorem State.advance_out (s : State) : (s.advance).out = s.out := rfl
@[simp] theorem State.advance_inp (s : State) : (s.advance).inp = s.inp := rfl
@[simp] theorem State.advance_trace (s : State) : (s.advance).trace = s.trace := rfl
@[simp] theorem State.advance_readReg (s : State) (q : RegIndex) : (s.advance).readReg q = s.readReg q := rfl

/-! ## `State.haltNormal` -/

@[simp] theorem State.haltNormal_config (s : State) : (s.haltNormal).config = s.config := rfl
@[simp] theorem State.haltNormal_nI (s : State) : (s.haltNormal).nI = s.nI := rfl
@[simp] theorem State.haltNormal_nW (s : State) : (s.haltNormal).nW = s.nW := rfl
@[simp] theorem State.haltNormal_mem (s : State) : (s.haltNormal).mem = s.mem := rfl
@[simp] theorem State.haltNormal_regs (s : State) : (s.haltNormal).regs = s.regs := rfl
@[simp] theorem State.haltNormal_pc (s : State) : (s.haltNormal).pc = s.pc := rfl
@[simp] theorem State.haltNormal_runState (s : State) : (s.haltNormal).runState = .haltedNormal := rfl
@[simp] theorem State.haltNormal_out (s : State) : (s.haltNormal).out = s.out := rfl
@[simp] theorem State.haltNormal_inp (s : State) : (s.haltNormal).inp = s.inp := rfl
@[simp] theorem State.haltNormal_trace (s : State) : (s.haltNormal).trace = s.trace := rfl
@[simp] theorem State.haltNormal_readReg (s : State) (q : RegIndex) : (s.haltNormal).readReg q = s.readReg q := rfl

/-! ## `State.takeFault` -/

@[simp] theorem State.takeFault_config (s : State) (f : RunFault) : (s.takeFault f).config = s.config := rfl
@[simp] theorem State.takeFault_nI (s : State) (f : RunFault) : (s.takeFault f).nI = s.nI := rfl
@[simp] theorem State.takeFault_nW (s : State) (f : RunFault) : (s.takeFault f).nW = s.nW := rfl
@[simp] theorem State.takeFault_mem (s : State) (f : RunFault) : (s.takeFault f).mem = s.mem := rfl
@[simp] theorem State.takeFault_regs (s : State) (f : RunFault) : (s.takeFault f).regs = s.regs := rfl
@[simp] theorem State.takeFault_pc (s : State) (f : RunFault) : (s.takeFault f).pc = s.pc := rfl
@[simp] theorem State.takeFault_runState (s : State) (f : RunFault) : (s.takeFault f).runState = .haltedFault f := rfl
@[simp] theorem State.takeFault_out (s : State) (f : RunFault) : (s.takeFault f).out = s.out := rfl
@[simp] theorem State.takeFault_inp (s : State) (f : RunFault) : (s.takeFault f).inp = s.inp := rfl
@[simp] theorem State.takeFault_trace (s : State) (f : RunFault) : (s.takeFault f).trace = s.trace := rfl
@[simp] theorem State.takeFault_readReg (s : State) (f : RunFault) (q : RegIndex) : (s.takeFault f).readReg q = s.readReg q := rfl

/-! ## `State.pushOut` -/

@[simp] theorem State.pushOut_config (s : State) (n : Int) : (s.pushOut n).config = s.config := rfl
@[simp] theorem State.pushOut_nI (s : State) (n : Int) : (s.pushOut n).nI = s.nI := rfl
@[simp] theorem State.pushOut_nW (s : State) (n : Int) : (s.pushOut n).nW = s.nW := rfl
@[simp] theorem State.pushOut_mem (s : State) (n : Int) : (s.pushOut n).mem = s.mem := rfl
@[simp] theorem State.pushOut_regs (s : State) (n : Int) : (s.pushOut n).regs = s.regs := rfl
@[simp] theorem State.pushOut_pc (s : State) (n : Int) : (s.pushOut n).pc = s.pc := rfl
@[simp] theorem State.pushOut_runState (s : State) (n : Int) : (s.pushOut n).runState = s.runState := rfl
@[simp] theorem State.pushOut_out (s : State) (n : Int) : (s.pushOut n).out = s.out ++ [n] := rfl
@[simp] theorem State.pushOut_inp (s : State) (n : Int) : (s.pushOut n).inp = s.inp := rfl
@[simp] theorem State.pushOut_trace (s : State) (n : Int) : (s.pushOut n).trace = s.trace := rfl
@[simp] theorem State.pushOut_readReg (s : State) (n : Int) (q : RegIndex) : (s.pushOut n).readReg q = s.readReg q := rfl

/-! ## `State.dropInput` -/

@[simp] theorem State.dropInput_config (s : State) : (s.dropInput).config = s.config := rfl
@[simp] theorem State.dropInput_nI (s : State) : (s.dropInput).nI = s.nI := rfl
@[simp] theorem State.dropInput_nW (s : State) : (s.dropInput).nW = s.nW := rfl
@[simp] theorem State.dropInput_mem (s : State) : (s.dropInput).mem = s.mem := rfl
@[simp] theorem State.dropInput_regs (s : State) : (s.dropInput).regs = s.regs := rfl
@[simp] theorem State.dropInput_pc (s : State) : (s.dropInput).pc = s.pc := rfl
@[simp] theorem State.dropInput_runState (s : State) : (s.dropInput).runState = s.runState := rfl
@[simp] theorem State.dropInput_out (s : State) : (s.dropInput).out = s.out := rfl
@[simp] theorem State.dropInput_inp (s : State) : (s.dropInput).inp = s.inp.tail := rfl
@[simp] theorem State.dropInput_trace (s : State) : (s.dropInput).trace = s.trace := rfl
@[simp] theorem State.dropInput_readReg (s : State) (q : RegIndex) : (s.dropInput).readReg q = s.readReg q := rfl

/-! ## `State.setMem` -/

@[simp] theorem State.setMem_config (s : State) (m : Memory) : (s.setMem m).config = s.config := rfl
@[simp] theorem State.setMem_nI (s : State) (m : Memory) : (s.setMem m).nI = s.nI := rfl
@[simp] theorem State.setMem_nW (s : State) (m : Memory) : (s.setMem m).nW = s.nW := rfl
@[simp] theorem State.setMem_mem (s : State) (m : Memory) : (s.setMem m).mem = m := rfl
@[simp] theorem State.setMem_regs (s : State) (m : Memory) : (s.setMem m).regs = s.regs := rfl
@[simp] theorem State.setMem_pc (s : State) (m : Memory) : (s.setMem m).pc = s.pc := rfl
@[simp] theorem State.setMem_runState (s : State) (m : Memory) : (s.setMem m).runState = s.runState := rfl
@[simp] theorem State.setMem_out (s : State) (m : Memory) : (s.setMem m).out = s.out := rfl
@[simp] theorem State.setMem_inp (s : State) (m : Memory) : (s.setMem m).inp = s.inp := rfl
@[simp] theorem State.setMem_trace (s : State) (m : Memory) : (s.setMem m).trace = s.trace := rfl
@[simp] theorem State.setMem_readReg (s : State) (m : Memory) (q : RegIndex) : (s.setMem m).readReg q = s.readReg q := rfl

/-! ## `State.emit` -/

@[simp] theorem State.emit_config (s : State) (e : Event) : (s.emit e).config = s.config := rfl
@[simp] theorem State.emit_nI (s : State) (e : Event) : (s.emit e).nI = s.nI := rfl
@[simp] theorem State.emit_nW (s : State) (e : Event) : (s.emit e).nW = s.nW := rfl
@[simp] theorem State.emit_mem (s : State) (e : Event) : (s.emit e).mem = s.mem := rfl
@[simp] theorem State.emit_regs (s : State) (e : Event) : (s.emit e).regs = s.regs := rfl
@[simp] theorem State.emit_pc (s : State) (e : Event) : (s.emit e).pc = s.pc := rfl
@[simp] theorem State.emit_runState (s : State) (e : Event) : (s.emit e).runState = s.runState := rfl
@[simp] theorem State.emit_out (s : State) (e : Event) : (s.emit e).out = s.out := rfl
@[simp] theorem State.emit_inp (s : State) (e : Event) : (s.emit e).inp = s.inp := rfl
@[simp] theorem State.emit_trace (s : State) (e : Event) : (s.emit e).trace = s.trace ++ [e] := rfl
@[simp] theorem State.emit_readReg (s : State) (e : Event) (q : RegIndex) : (s.emit e).readReg q = s.readReg q := rfl

/-! ## `State.supplyInput` -/

@[simp] theorem State.supplyInput_config (s : State) (ns : List Word) : (s.supplyInput ns).config = s.config := rfl
@[simp] theorem State.supplyInput_nI (s : State) (ns : List Word) : (s.supplyInput ns).nI = s.nI := rfl
@[simp] theorem State.supplyInput_nW (s : State) (ns : List Word) : (s.supplyInput ns).nW = s.nW := rfl
@[simp] theorem State.supplyInput_mem (s : State) (ns : List Word) : (s.supplyInput ns).mem = s.mem := rfl
@[simp] theorem State.supplyInput_regs (s : State) (ns : List Word) : (s.supplyInput ns).regs = s.regs := rfl
@[simp] theorem State.supplyInput_pc (s : State) (ns : List Word) : (s.supplyInput ns).pc = s.pc := rfl
@[simp] theorem State.supplyInput_runState (s : State) (ns : List Word) : (s.supplyInput ns).runState = s.runState := rfl
@[simp] theorem State.supplyInput_out (s : State) (ns : List Word) : (s.supplyInput ns).out = s.out := rfl
@[simp] theorem State.supplyInput_inp (s : State) (ns : List Word) : (s.supplyInput ns).inp = s.inp ++ ns := rfl
@[simp] theorem State.supplyInput_trace (s : State) (ns : List Word) : (s.supplyInput ns).trace = s.trace := rfl
@[simp] theorem State.supplyInput_readReg (s : State) (ns : List Word) (q : RegIndex) : (s.supplyInput ns).readReg q = s.readReg q := rfl

/-! ## `State.withTextRadix` -/

@[simp] theorem State.withTextRadix_config (s : State) (r : TextRadix) :
    (s.withTextRadix r).config = { s.config with textRadix := r } := rfl
@[simp] theorem State.withTextRadix_nI (s : State) (r : TextRadix) : (s.withTextRadix r).nI = s.nI := rfl
@[simp] theorem State.withTextRadix_nW (s : State) (r : TextRadix) : (s.withTextRadix r).nW = s.nW := rfl
@[simp] theorem State.withTextRadix_mem (s : State) (r : TextRadix) : (s.withTextRadix r).mem = s.mem := rfl
@[simp] theorem State.withTextRadix_regs (s : State) (r : TextRadix) : (s.withTextRadix r).regs = s.regs := rfl
@[simp] theorem State.withTextRadix_pc (s : State) (r : TextRadix) : (s.withTextRadix r).pc = s.pc := rfl
@[simp] theorem State.withTextRadix_runState (s : State) (r : TextRadix) : (s.withTextRadix r).runState = s.runState := rfl
@[simp] theorem State.withTextRadix_out (s : State) (r : TextRadix) : (s.withTextRadix r).out = s.out := rfl
@[simp] theorem State.withTextRadix_inp (s : State) (r : TextRadix) : (s.withTextRadix r).inp = s.inp := rfl
@[simp] theorem State.withTextRadix_trace (s : State) (r : TextRadix) : (s.withTextRadix r).trace = s.trace := rfl
@[simp] theorem State.withTextRadix_readReg (s : State) (r : TextRadix) (q : RegIndex) :
    (s.withTextRadix r).readReg q = s.readReg q := rfl

/-! ## `State.poke` -/

@[simp] theorem State.poke_config (s : State) (r : RegIndex) (v : Word) : (s.poke r v).config = s.config := rfl
@[simp] theorem State.poke_nI (s : State) (r : RegIndex) (v : Word) : (s.poke r v).nI = s.nI := rfl
@[simp] theorem State.poke_nW (s : State) (r : RegIndex) (v : Word) : (s.poke r v).nW = s.nW := rfl
@[simp] theorem State.poke_mem (s : State) (r : RegIndex) (v : Word) : (s.poke r v).mem = s.mem := rfl
@[simp] theorem State.poke_regs (s : State) (r : RegIndex) (v : Word) : (s.poke r v).regs = s.regs.set r v := rfl
@[simp] theorem State.poke_pc (s : State) (r : RegIndex) (v : Word) : (s.poke r v).pc = s.pc := rfl
@[simp] theorem State.poke_runState (s : State) (r : RegIndex) (v : Word) : (s.poke r v).runState = s.runState := rfl
@[simp] theorem State.poke_out (s : State) (r : RegIndex) (v : Word) : (s.poke r v).out = s.out := rfl
@[simp] theorem State.poke_inp (s : State) (r : RegIndex) (v : Word) : (s.poke r v).inp = s.inp := rfl
@[simp] theorem State.poke_trace (s : State) (r : RegIndex) (v : Word) : (s.poke r v).trace = s.trace := rfl

/-! ## `State.writeReg` -/

@[simp] theorem State.writeReg_config (s : State) (r : RegIndex) (v : Word) : (s.writeReg r v).config = s.config := by
  unfold State.writeReg; split <;> rfl
@[simp] theorem State.writeReg_nI (s : State) (r : RegIndex) (v : Word) : (s.writeReg r v).nI = s.nI := by
  unfold State.writeReg; split <;> rfl
@[simp] theorem State.writeReg_nW (s : State) (r : RegIndex) (v : Word) : (s.writeReg r v).nW = s.nW := by
  unfold State.writeReg; split <;> rfl
@[simp] theorem State.writeReg_mem (s : State) (r : RegIndex) (v : Word) : (s.writeReg r v).mem = s.mem := by
  unfold State.writeReg; split <;> rfl
@[simp] theorem State.writeReg_pc (s : State) (r : RegIndex) (v : Word) : (s.writeReg r v).pc = s.pc := by
  unfold State.writeReg; split <;> rfl
@[simp] theorem State.writeReg_runState (s : State) (r : RegIndex) (v : Word) : (s.writeReg r v).runState = s.runState := by
  unfold State.writeReg; split <;> rfl
@[simp] theorem State.writeReg_out (s : State) (r : RegIndex) (v : Word) : (s.writeReg r v).out = s.out := by
  unfold State.writeReg; split <;> rfl
@[simp] theorem State.writeReg_inp (s : State) (r : RegIndex) (v : Word) : (s.writeReg r v).inp = s.inp := by
  unfold State.writeReg; split <;> rfl
@[simp] theorem State.writeReg_trace (s : State) (r : RegIndex) (v : Word) : (s.writeReg r v).trace = s.trace := by
  unfold State.writeReg; split <;> rfl

/-! ## `State.writeField` -/

@[simp] theorem State.writeField_config (s : State) (f : RegField) (v : Word) : (s.writeField f v).config = s.config := by
  simp [State.writeField]
@[simp] theorem State.writeField_nI (s : State) (f : RegField) (v : Word) : (s.writeField f v).nI = s.nI := by
  simp [State.writeField]
@[simp] theorem State.writeField_nW (s : State) (f : RegField) (v : Word) : (s.writeField f v).nW = s.nW := by
  simp [State.writeField]
@[simp] theorem State.writeField_mem (s : State) (f : RegField) (v : Word) : (s.writeField f v).mem = s.mem := by
  simp [State.writeField]
@[simp] theorem State.writeField_pc (s : State) (f : RegField) (v : Word) : (s.writeField f v).pc = s.pc := by
  simp [State.writeField]
@[simp] theorem State.writeField_runState (s : State) (f : RegField) (v : Word) : (s.writeField f v).runState = s.runState := by
  simp [State.writeField]
@[simp] theorem State.writeField_out (s : State) (f : RegField) (v : Word) : (s.writeField f v).out = s.out := by
  simp [State.writeField]
@[simp] theorem State.writeField_inp (s : State) (f : RegField) (v : Word) : (s.writeField f v).inp = s.inp := by
  simp [State.writeField]
@[simp] theorem State.writeField_trace (s : State) (f : RegField) (v : Word) : (s.writeField f v).trace = s.trace := by
  simp [State.writeField]

/-! ## `State.writeHiLo` -/

@[simp] theorem State.writeHiLo_config (s : State) (hi lo : Word) : (s.writeHiLo hi lo).config = s.config := by
  simp [State.writeHiLo]
@[simp] theorem State.writeHiLo_nI (s : State) (hi lo : Word) : (s.writeHiLo hi lo).nI = s.nI := by
  simp [State.writeHiLo]
@[simp] theorem State.writeHiLo_nW (s : State) (hi lo : Word) : (s.writeHiLo hi lo).nW = s.nW := by
  simp [State.writeHiLo]
@[simp] theorem State.writeHiLo_mem (s : State) (hi lo : Word) : (s.writeHiLo hi lo).mem = s.mem := by
  simp [State.writeHiLo]
@[simp] theorem State.writeHiLo_pc (s : State) (hi lo : Word) : (s.writeHiLo hi lo).pc = s.pc := by
  simp [State.writeHiLo]
@[simp] theorem State.writeHiLo_runState (s : State) (hi lo : Word) : (s.writeHiLo hi lo).runState = s.runState := by
  simp [State.writeHiLo]
@[simp] theorem State.writeHiLo_out (s : State) (hi lo : Word) : (s.writeHiLo hi lo).out = s.out := by
  simp [State.writeHiLo]
@[simp] theorem State.writeHiLo_inp (s : State) (hi lo : Word) : (s.writeHiLo hi lo).inp = s.inp := by
  simp [State.writeHiLo]
@[simp] theorem State.writeHiLo_trace (s : State) (hi lo : Word) : (s.writeHiLo hi lo).trace = s.trace := by
  simp [State.writeHiLo]

/-! ## Registers -/

theorem State.readReg_writeReg (s : State) (r q : RegIndex) (v : Word) :
    (s.writeReg r v).readReg q = if q = r ∧ r ≠ 0 then v else s.readReg q := by
  unfold State.writeReg State.readReg
  by_cases hr : r = 0
  · simp [hr]
  · by_cases hq : q = r
    · subst hq; simp [hr]
    · have : (r : Nat) ≠ q := fun h => hq (Fin.ext h.symm)
      simp [hr, hq, this]

theorem State.readReg_writeField (s : State) (f : RegField) (q : RegIndex) (v : Word) :
    (s.writeField f v).readReg q = if q = regOf f ∧ regOf f ≠ 0 then v else s.readReg q :=
  s.readReg_writeReg (regOf f) q v

theorem State.readReg_writeHiLo (s : State) (hi lo : Word) (q : RegIndex) :
    (s.writeHiLo hi lo).readReg q = if q = regHI then hi else if q = regLO then lo else s.readReg q := by
  have hhi : regHI ≠ 0 := by decide
  have hlo : regLO ≠ 0 := by decide
  simp [State.writeHiLo, State.readReg_writeReg, hhi, hlo]

@[simp] theorem State.writeReg_zero (s : State) (v : Word) : s.writeReg 0 v = s := by
  simp [State.writeReg]

theorem State.readReg_poke (s : State) (r q : RegIndex) (v : Word) :
    (s.poke r v).readReg q = if q = r then v else s.readReg q := by
  unfold State.poke State.readReg
  by_cases hq : q = r
  · subst hq; simp
  · have : (r : Nat) ≠ q := fun h => hq (Fin.ext h.symm)
    simp [hq, this]

/-- Two register files that read the same everywhere are the same. -/
theorem State.regs_eq_of_readReg {s t : State} (h : ∀ r, s.readReg r = t.readReg r) : s.regs = t.regs := by
  apply Vector.ext
  intro k hk
  exact h ⟨k, hk⟩

end Sys2Proof.Machine
end

