-- ==== Sys2Proof/Laws/Ops.lean ====
section
/-! SUPPORT. One lemma for each shared operation: everything it can do. -/

namespace Sys2Proof.Machine

/-! ## Operands -/

theorem sext16_eq_toInt (imm : ImmField) : sext16 imm = imm.toInt := by
  unfold sext16
  rw [BitVec.toInt_eq_toNat_cond]
  split <;> split <;> omega

theorem sext16_range (imm : ImmField) : -32768 ≤ sext16 imm ∧ sext16 imm ≤ 32767 := by
  have := imm.isLt
  unfold sext16
  split <;> omega

theorem regOf_val (f : RegField) : (regOf f : Nat) = f.toNat := rfl

theorem regOf_eq_zero {f : RegField} : regOf f = 0 ↔ f = 0 := by
  constructor
  · intro h
    have h' : f.toNat = 0 := congrArg Fin.val h
    exact BitVec.eq_of_toNat_eq h'
  · rintro rfl; rfl

theorem regOf_injective {f g : RegField} (h : regOf f = regOf g) : f = g := by
  have h' : (regOf f : Nat) = regOf g := by rw [h]
  exact BitVec.eq_of_toNat_eq h'

theorem regOf_ne_LO (f : RegField) : regOf f ≠ regLO := by
  intro h
  have h1 : f.toNat = 32 := congrArg Fin.val h
  have := f.isLt
  omega

theorem regOf_ne_HI (f : RegField) : regOf f ≠ regHI := by
  intro h
  have h1 : f.toNat = 33 := congrArg Fin.val h
  have := f.isLt
  omega

/-! ## Data accesses -/

theorem State.inDataRegion_iff {s : State} {a : Int} :
    s.inDataRegion a = true ↔ (s.nI : Int) ≤ a ∧ a < (s.nI : Int) + s.nW := by
  simp [State.inDataRegion]

/-- What `MemRead` answers (R36). -/
theorem State.memRead_cases (s : State) (a : Int) :
    (s.inDataRegion a = true ∧ s.memRead a = .ok (s.mem.read a.toNat)) ∨
    (s.inDataRegion a = false ∧ s.memRead a = .error (.memoryFault a)) := by
  unfold State.memRead
  cases s.inDataRegion a <;> simp

/-- What `MemWrite` answers (R37). -/
theorem State.memWrite_cases (s : State) (a : Int) (v : Word) :
    (s.inDataRegion a = true ∧ s.memWrite a v = .ok (s.setMem (s.mem.write a.toNat v))) ∨
    (s.inDataRegion a = false ∧ s.memWrite a v = .error (.memoryFault a)) := by
  unfold State.memWrite
  cases s.inDataRegion a <;> simp

/-! ## Transfers -/

/-- What a transfer does (R89): it sets a valid pc, or takes one of the two faults. -/
theorem State.transfer_cases (s : State) (t : Int) :
    (0 ≤ t ∧ t < (s.nI : Int) ∧ s.transfer t = s.setPc t.toNat) ∨
    ((s.nI : Int) ≤ t ∧ t < (s.nI : Int) + s.nW ∧ s.transfer t = s.takeFault (.controlFlowFault t .inData)) ∨
    ((t < 0 ∨ (s.nI : Int) + s.nW ≤ t) ∧ s.transfer t = s.takeFault (.controlFlowFault t .illegal)) := by
  unfold State.transfer State.targetFault
  by_cases h1 : 0 ≤ t ∧ t < (s.nI : Int)
  · exact .inl ⟨h1.1, h1.2, by simp [h1]⟩
  · by_cases h2 : s.inDataRegion t = true
    · have h := State.inDataRegion_iff.mp h2
      exact .inr (.inl ⟨h.1, h.2, by simp [h1, h2]⟩)
    · refine .inr (.inr ⟨?_, by simp [h1, h2]⟩)
      rw [State.inDataRegion_iff] at h2
      omega

/-! ## Numbers -/

/-- The range of a signed 32-bit value (R12). -/
theorem S_range (w : Word) : -(2 ^ 31) ≤ S w ∧ S w < 2 ^ 31 := by
  have := BitVec.two_mul_toInt_lt (x := w)
  have := BitVec.le_two_mul_toInt (x := w)
  simp only [S]
  omega

/-- Narrowing a number that fits keeps its value. -/
theorem S_wrap32 {z : Int} (h1 : -(2 ^ 31) ≤ z) (h2 : z < 2 ^ 31) : S (wrap32 z) = z := by
  simp only [S, wrap32, BitVec.toInt_ofInt]
  exact Int.bmod_eq_of_le (by omega) (by omega)

/-- The two halves of a 64-bit pattern make it up again. -/
theorem halves_append (p : BitVec 64) : p.extractLsb' 32 32 ++ p.extractLsb' 0 32 = p := by
  apply BitVec.eq_of_getLsbD_eq
  intro k hk
  simp only [BitVec.getLsbD_append, BitVec.getLsbD_extractLsb']
  by_cases h : k < 32
  · simp [h]
  · have e : 32 + (k - 32) = k := by omega
    have e' : k - 32 < 32 := by omega
    simp [h, e, e']

/-! ## Shapes of a result -/

/-- An instruction that writes one register field and advances has the shape `WritesOneRegister`. -/
theorem writesOneRegister_of_exec {i : Instr} {s : State} {f : RegField} {v : Word}
    (h : exec i s = .next ((s.writeField f v).advance)) : WritesOneRegister i s (regOf f) v :=
  ⟨_, h, fun r => by simp [State.readReg_writeField], by simp, fun a => by simp, by simp [SameSurroundings]⟩

/-- An instruction that writes HI and LO and advances has the shape `WritesHiLo`. -/
theorem writesHiLo_of_exec {i : Instr} {s : State} {hi lo : Word}
    (h : exec i s = .next ((s.writeHiLo hi lo).advance)) : WritesHiLo i s hi lo := by
  have hne : regLO ≠ regHI := by decide
  refine ⟨_, h, ?_, ?_, ?_, by simp, fun a => by simp, by simp [SameSurroundings]⟩
  · simp [State.readReg_writeHiLo]
  · rw [State.advance_readReg, State.readReg_writeHiLo, if_neg hne, if_pos rfl]
  · intro r h1 h2
    simp [State.readReg_writeHiLo, h1, h2]

/-! ## The end of a step -/

@[simp] theorem State.haltCheck_config (s : State) : s.haltCheck.config = s.config := by
  unfold State.haltCheck; split <;> rfl
@[simp] theorem State.haltCheck_nI (s : State) : s.haltCheck.nI = s.nI := by
  unfold State.haltCheck; split <;> rfl
@[simp] theorem State.haltCheck_nW (s : State) : s.haltCheck.nW = s.nW := by
  unfold State.haltCheck; split <;> rfl
@[simp] theorem State.haltCheck_mem (s : State) : s.haltCheck.mem = s.mem := by
  unfold State.haltCheck; split <;> rfl
@[simp] theorem State.haltCheck_regs (s : State) : s.haltCheck.regs = s.regs := by
  unfold State.haltCheck; split <;> rfl
@[simp] theorem State.haltCheck_pc (s : State) : s.haltCheck.pc = s.pc := by
  unfold State.haltCheck; split <;> rfl
@[simp] theorem State.haltCheck_out (s : State) : s.haltCheck.out = s.out := by
  unfold State.haltCheck; split <;> rfl
@[simp] theorem State.haltCheck_inp (s : State) : s.haltCheck.inp = s.inp := by
  unfold State.haltCheck; split <;> rfl
@[simp] theorem State.haltCheck_trace (s : State) : s.haltCheck.trace = s.trace := by
  unfold State.haltCheck; split <;> rfl

/-- The run state after the halt check (R70). -/
theorem State.haltCheck_runState (s : State) :
    s.haltCheck.runState = if s.runState = .running ∧ s.nI ≤ s.pc then .haltedNormal else s.runState := by
  unfold State.haltCheck; split <;> rfl

@[simp] theorem finishStep_config (pc : Nat) (w : Word) (s : State) : (finishStep pc w s).config = s.config := by
  simp [finishStep]
@[simp] theorem finishStep_nI (pc : Nat) (w : Word) (s : State) : (finishStep pc w s).nI = s.nI := by
  simp [finishStep]
@[simp] theorem finishStep_nW (pc : Nat) (w : Word) (s : State) : (finishStep pc w s).nW = s.nW := by
  simp [finishStep]
@[simp] theorem finishStep_mem (pc : Nat) (w : Word) (s : State) : (finishStep pc w s).mem = s.mem := by
  simp [finishStep]
@[simp] theorem finishStep_regs (pc : Nat) (w : Word) (s : State) : (finishStep pc w s).regs = s.regs := by
  simp [finishStep]
@[simp] theorem finishStep_pc (pc : Nat) (w : Word) (s : State) : (finishStep pc w s).pc = s.pc := by
  simp [finishStep]
@[simp] theorem finishStep_out (pc : Nat) (w : Word) (s : State) : (finishStep pc w s).out = s.out := by
  simp [finishStep]
@[simp] theorem finishStep_inp (pc : Nat) (w : Word) (s : State) : (finishStep pc w s).inp = s.inp := by
  simp [finishStep]
@[simp] theorem finishStep_runState (pc : Nat) (w : Word) (s : State) :
    (finishStep pc w s).runState = s.haltCheck.runState := by
  simp [finishStep]
@[simp] theorem finishStep_trace (pc : Nat) (w : Word) (s : State) :
    (finishStep pc w s).trace = s.trace ++ [eventOf pc w s.haltCheck] := by
  simp [finishStep]
@[simp] theorem finishStep_readReg (pc : Nat) (w : Word) (s : State) (r : RegIndex) :
    (finishStep pc w s).readReg r = s.readReg r := by
  simp [State.readReg]

/-! ## The shown trace -/

@[simp] theorem State.showEvent_pc (s : State) (e : Event) : (s.showEvent e).pc = e.pc := rfl
@[simp] theorem State.showEvent_text (s : State) (e : Event) :
    (s.showEvent e).text = disassemble s.config.textRadix e.word := rfl
@[simp] theorem State.showEvent_snapshot (s : State) (e : Event) :
    (s.showEvent e).snapshot = e.snapshot.map (Snapshot.labelled s.nI) := rfl

theorem snapshotLabels_length (nI nW : Nat) : (snapshotLabels nI nW).length = 34 + nW := by
  simp [snapshotLabels, regNames]
  omega

end Sys2Proof.Machine
end

