-- ==== Sys2Proof/Laws/PerInstr.lean ====
section
/-! SUPPORT. A fact of every instruction as syntax, one lemma per constructor: its word is the word of its own row of the
opcode table (spec `30_encoding.md` rule R56). -/

/-- The encoder's word matches the row of the instruction's mnemonic. -/
def Sys2Proof.Laws.EncodesItsRow.Statement (i : Sys2Proof.Instr) : Prop :=
  ∃ row ∈ Sys2Proof.opcodeTable, row.mnemonic = Sys2Proof.mnemonicOf i ∧ Sys2Proof.encode i &&& row.mask = row.pattern

theorem Sys2Proof.Laws.EncodesItsRow.addu (rd rs rt : Sys2Proof.RegField) :
    Sys2Proof.Laws.EncodesItsRow.Statement (.addu rd rs rt) :=
  ⟨⟨"addu", 0xFC00003F#32, 0x00000021#32⟩, by decide, rfl, (Sys2Proof.wordR_mask _ _ _ _ _).trans (by decide)⟩

theorem Sys2Proof.Laws.EncodesItsRow.and (rd rs rt : Sys2Proof.RegField) :
    Sys2Proof.Laws.EncodesItsRow.Statement (.and rd rs rt) :=
  ⟨⟨"and", 0xFC00003F#32, 0x00000024#32⟩, by decide, rfl, (Sys2Proof.wordR_mask _ _ _ _ _).trans (by decide)⟩

theorem Sys2Proof.Laws.EncodesItsRow.or (rd rs rt : Sys2Proof.RegField) :
    Sys2Proof.Laws.EncodesItsRow.Statement (.or rd rs rt) :=
  ⟨⟨"or", 0xFC00003F#32, 0x00000025#32⟩, by decide, rfl, (Sys2Proof.wordR_mask _ _ _ _ _).trans (by decide)⟩

theorem Sys2Proof.Laws.EncodesItsRow.slt (rd rs rt : Sys2Proof.RegField) :
    Sys2Proof.Laws.EncodesItsRow.Statement (.slt rd rs rt) :=
  ⟨⟨"slt", 0xFC00003F#32, 0x0000002A#32⟩, by decide, rfl, (Sys2Proof.wordR_mask _ _ _ _ _).trans (by decide)⟩

theorem Sys2Proof.Laws.EncodesItsRow.subu (rd rs rt : Sys2Proof.RegField) :
    Sys2Proof.Laws.EncodesItsRow.Statement (.subu rd rs rt) :=
  ⟨⟨"subu", 0xFC00003F#32, 0x00000023#32⟩, by decide, rfl, (Sys2Proof.wordR_mask _ _ _ _ _).trans (by decide)⟩

theorem Sys2Proof.Laws.EncodesItsRow.div (rs rt : Sys2Proof.RegField) :
    Sys2Proof.Laws.EncodesItsRow.Statement (.div rs rt) :=
  ⟨⟨"div", 0xFC00003F#32, 0x0000001A#32⟩, by decide, rfl, (Sys2Proof.wordR_mask _ _ _ _ _).trans (by decide)⟩

theorem Sys2Proof.Laws.EncodesItsRow.mult (rs rt : Sys2Proof.RegField) :
    Sys2Proof.Laws.EncodesItsRow.Statement (.mult rs rt) :=
  ⟨⟨"mult", 0xFC00003F#32, 0x00000018#32⟩, by decide, rfl, (Sys2Proof.wordR_mask _ _ _ _ _).trans (by decide)⟩

theorem Sys2Proof.Laws.EncodesItsRow.mfhi (rd : Sys2Proof.RegField) :
    Sys2Proof.Laws.EncodesItsRow.Statement (.mfhi rd) :=
  ⟨⟨"mfhi", 0xFC00003F#32, 0x00000010#32⟩, by decide, rfl, (Sys2Proof.wordR_mask _ _ _ _ _).trans (by decide)⟩

theorem Sys2Proof.Laws.EncodesItsRow.mflo (rd : Sys2Proof.RegField) :
    Sys2Proof.Laws.EncodesItsRow.Statement (.mflo rd) :=
  ⟨⟨"mflo", 0xFC00003F#32, 0x00000012#32⟩, by decide, rfl, (Sys2Proof.wordR_mask _ _ _ _ _).trans (by decide)⟩

theorem Sys2Proof.Laws.EncodesItsRow.syscall :
    Sys2Proof.Laws.EncodesItsRow.Statement .syscall :=
  ⟨⟨"syscall", 0xFC00003F#32, 0x0000000C#32⟩, by decide, rfl, (Sys2Proof.wordR_mask _ _ _ _ _).trans (by decide)⟩

theorem Sys2Proof.Laws.EncodesItsRow.addiu (rt rs : Sys2Proof.RegField) (imm : Sys2Proof.ImmField) :
    Sys2Proof.Laws.EncodesItsRow.Statement (.addiu rt rs imm) :=
  ⟨⟨"addiu", 0xFC000000#32, 0x24000000#32⟩, by decide, rfl, (Sys2Proof.wordI_mask _ _ _ _).trans (by decide)⟩

theorem Sys2Proof.Laws.EncodesItsRow.beq (rs rt : Sys2Proof.RegField) (imm : Sys2Proof.ImmField) :
    Sys2Proof.Laws.EncodesItsRow.Statement (.beq rs rt imm) :=
  ⟨⟨"beq", 0xFC000000#32, 0x10000000#32⟩, by decide, rfl, (Sys2Proof.wordI_mask _ _ _ _).trans (by decide)⟩

theorem Sys2Proof.Laws.EncodesItsRow.bne (rs rt : Sys2Proof.RegField) (imm : Sys2Proof.ImmField) :
    Sys2Proof.Laws.EncodesItsRow.Statement (.bne rs rt imm) :=
  ⟨⟨"bne", 0xFC000000#32, 0x14000000#32⟩, by decide, rfl, (Sys2Proof.wordI_mask _ _ _ _).trans (by decide)⟩

theorem Sys2Proof.Laws.EncodesItsRow.j (address : Sys2Proof.AddressField) :
    Sys2Proof.Laws.EncodesItsRow.Statement (.j address) :=
  ⟨⟨"j", 0xFC000000#32, 0x08000000#32⟩, by decide, rfl, (Sys2Proof.wordJ_mask _ _).trans (by decide)⟩

theorem Sys2Proof.Laws.EncodesItsRow.lw (rt rs : Sys2Proof.RegField) (imm : Sys2Proof.ImmField) :
    Sys2Proof.Laws.EncodesItsRow.Statement (.lw rt rs imm) :=
  ⟨⟨"lw", 0xFC000000#32, 0x8C000000#32⟩, by decide, rfl, (Sys2Proof.wordI_mask _ _ _ _).trans (by decide)⟩

theorem Sys2Proof.Laws.EncodesItsRow.sw (rt rs : Sys2Proof.RegField) (imm : Sys2Proof.ImmField) :
    Sys2Proof.Laws.EncodesItsRow.Statement (.sw rt rs imm) :=
  ⟨⟨"sw", 0xFC000000#32, 0xAC000000#32⟩, by decide, rfl, (Sys2Proof.wordI_mask _ _ _ _).trans (by decide)⟩
end

