-- ==== Sys2Proof/Laws/Step.lean ====
section
/-! SUPPORT. What `exec` and `step` can do, said once. -/

namespace Sys2Proof.Machine

/-- Every instruction answers a next state: none faults and none is refused. -/
theorem exec_next (i : Instr) (s : State) : ∃ t, exec i s = .next t := by
  cases i with
  | div rs rt => simp only [exec, execDiv]; split <;> exact ⟨_, rfl⟩
  | syscall => simp only [exec, execSyscall]; repeat' split
               all_goals exact ⟨_, rfl⟩
  | beq rs rt imm => simp only [exec, execBeq]; split <;> exact ⟨_, rfl⟩
  | bne rs rt imm => simp only [exec, execBne]; split <;> exact ⟨_, rfl⟩
  | lw rt rs imm => simp only [exec, execLw]; split <;> exact ⟨_, rfl⟩
  | sw rt rs imm => simp only [exec, execSw]; split <;> exact ⟨_, rfl⟩
  | _ => exact ⟨_, rfl⟩

/-- What an instruction leaves of the parameters, the counts and the trace: all of it. -/
theorem exec_keeps_constants {i : Instr} {s t : State} (h : exec i s = .next t) :
    t.config = s.config ∧ t.nI = s.nI ∧ t.nW = s.nW ∧ t.trace = s.trace := by
  cases i with
  | div rs rt => simp only [exec, execDiv] at h; split at h <;> cases h <;> simp
  | syscall =>
    simp only [exec, execSyscall] at h
    split at h
    · cases h; simp [printInteger]
    · split at h
      · cases h; unfold readInteger; split <;> simp
      · split at h <;> cases h <;> simp [exitRun]
  | beq rs rt imm =>
    simp only [exec, execBeq] at h
    split at h <;> cases h
    · rcases s.transfer_cases (s.branchTarget imm) with ⟨-, -, e⟩ | ⟨-, -, e⟩ | ⟨-, e⟩ <;> simp [e]
    · simp
  | bne rs rt imm =>
    simp only [exec, execBne] at h
    split at h <;> cases h
    · simp
    · rcases s.transfer_cases (s.branchTarget imm) with ⟨-, -, e⟩ | ⟨-, -, e⟩ | ⟨-, e⟩ <;> simp [e]
  | j a =>
    simp only [exec, execJ] at h
    cases h
    rcases s.transfer_cases (jumpTarget a) with ⟨-, -, e⟩ | ⟨-, -, e⟩ | ⟨-, e⟩ <;> simp [e]
  | lw rt rs imm =>
    simp only [exec, execLw] at h
    rcases s.memRead_cases (s.effectiveAddress rs imm) with ⟨-, e⟩ | ⟨-, e⟩ <;>
      (rw [e] at h; cases h; simp)
  | sw rt rs imm =>
    simp only [exec, execSw] at h
    rcases s.memWrite_cases (s.effectiveAddress rs imm) (s.readField rt) with ⟨-, e⟩ | ⟨-, e⟩ <;>
      (rw [e] at h; cases h; simp)
  | _ => cases h; simp

/-- What an instruction does to memory: nothing, but for a `sw` inside the data region (R37). -/
theorem exec_mem {i : Instr} {s t : State} (h : exec i s = .next t) :
    t.mem = s.mem ∨ ∃ rt rs imm, i = .sw rt rs imm ∧ s.inDataRegion (s.effectiveAddress rs imm) = true ∧
      t.mem = s.mem.write (s.effectiveAddress rs imm).toNat (s.readField rt) := by
  cases i with
  | div rs rt => simp only [exec, execDiv] at h; split at h <;> cases h <;> simp
  | syscall =>
    simp only [exec, execSyscall] at h
    split at h
    · cases h; simp [printInteger]
    · split at h
      · cases h; unfold readInteger; split <;> simp
      · split at h <;> cases h <;> simp [exitRun]
  | beq rs rt imm =>
    simp only [exec, execBeq] at h
    split at h <;> cases h
    · rcases s.transfer_cases (s.branchTarget imm) with ⟨-, -, e⟩ | ⟨-, -, e⟩ | ⟨-, e⟩ <;> simp [e]
    · simp
  | bne rs rt imm =>
    simp only [exec, execBne] at h
    split at h <;> cases h
    · simp
    · rcases s.transfer_cases (s.branchTarget imm) with ⟨-, -, e⟩ | ⟨-, -, e⟩ | ⟨-, e⟩ <;> simp [e]
  | j a =>
    simp only [exec, execJ] at h
    cases h
    rcases s.transfer_cases (jumpTarget a) with ⟨-, -, e⟩ | ⟨-, -, e⟩ | ⟨-, e⟩ <;> simp [e]
  | lw rt rs imm =>
    simp only [exec, execLw] at h
    rcases s.memRead_cases (s.effectiveAddress rs imm) with ⟨-, e⟩ | ⟨-, e⟩ <;>
      (rw [e] at h; cases h; simp)
  | sw rt rs imm =>
    simp only [exec, execSw] at h
    rcases s.memWrite_cases (s.effectiveAddress rs imm) (s.readField rt) with ⟨hf, e⟩ | ⟨-, e⟩ <;>
      (rw [e] at h; cases h)
    · right; exact ⟨rt, rs, imm, rfl, hf, by simp⟩
    · simp
  | _ => cases h; simp

/-- What an instruction does to the console channels: nothing, but for services 1 and 5 of `syscall` (R85, R86). -/
theorem exec_channels {i : Instr} {s t : State} (h : exec i s = .next t) :
    (t.out = s.out ∨ (t.out = s.out ++ [S (s.readReg 4)] ∧ i = .syscall ∧ S (s.readReg 2) = 1)) ∧
    (t.inp = s.inp ∨ (s.inp = t.readReg 2 :: t.inp ∧ i = .syscall ∧ S (s.readReg 2) = 5)) := by
  cases i with
  | div rs rt => simp only [exec, execDiv] at h; split at h <;> cases h <;> simp
  | syscall =>
    simp only [exec, execSyscall] at h
    split at h
    · next h1 => cases h; exact ⟨.inr ⟨by simp [printInteger], rfl, h1⟩, by simp [printInteger]⟩
    · split at h
      · next h1 =>
        cases h
        unfold readInteger
        split
        · simp
        · next n ns hi =>
          refine ⟨by simp, .inr ⟨?_, rfl, h1⟩⟩
          have h2 : regV0 ≠ 0 := by decide
          simp [hi, State.readReg_writeReg, h2]
      · split at h <;> cases h <;> simp [exitRun]
  | beq rs rt imm =>
    simp only [exec, execBeq] at h
    split at h <;> cases h
    · rcases s.transfer_cases (s.branchTarget imm) with ⟨-, -, e⟩ | ⟨-, -, e⟩ | ⟨-, e⟩ <;> simp [e]
    · simp
  | bne rs rt imm =>
    simp only [exec, execBne] at h
    split at h <;> cases h
    · simp
    · rcases s.transfer_cases (s.branchTarget imm) with ⟨-, -, e⟩ | ⟨-, -, e⟩ | ⟨-, e⟩ <;> simp [e]
  | j a =>
    simp only [exec, execJ] at h
    cases h
    rcases s.transfer_cases (jumpTarget a) with ⟨-, -, e⟩ | ⟨-, -, e⟩ | ⟨-, e⟩ <;> simp [e]
  | lw rt rs imm =>
    simp only [exec, execLw] at h
    rcases s.memRead_cases (s.effectiveAddress rs imm) with ⟨-, e⟩ | ⟨-, e⟩ <;>
      (rw [e] at h; cases h; simp)
  | sw rt rs imm =>
    simp only [exec, execSw] at h
    rcases s.memWrite_cases (s.effectiveAddress rs imm) (s.readField rt) with ⟨hf, e⟩ | ⟨-, e⟩ <;>
      (rw [e] at h; cases h; simp)
  | _ => cases h; simp

/-- How an instruction of a running machine ends: it takes a fault, is held, or completes with the pc of R21's table and the
run still running unless it is the exit syscall. -/
theorem exec_outcome {i : Instr} {s t : State} (h : exec i s = .next t) (hs : s.runState = .running) :
    (∃ f, t = s.takeFault f) ∨ (heldForInput i s = true ∧ t = s) ∨
    (heldForInput i s = false ∧ (t.pc : Int) = pcAfter i s ∧
      t.runState = if i = .syscall ∧ s.service = 10 then .haltedNormal else .running) := by
  cases i with
  | div rs rt => simp only [exec, execDiv] at h; split at h <;> cases h
                 · exact .inl ⟨_, rfl⟩
                 · exact .inr (.inr (by simp [hs, pcAfter, heldForInput]))
  | syscall =>
    simp only [exec, execSyscall] at h
    split at h
    · next h1 => cases h; exact .inr (.inr (by simp [printInteger, hs, h1, pcAfter, heldForInput]))
    · split at h
      · next h1 =>
        cases h
        cases hi : s.inp with
        | nil => exact .inr (.inl (by simp [heldForInput, h1, hi, readInteger]))
        | cons n ns => exact .inr (.inr (by simp [heldForInput, h1, hi, readInteger, hs, pcAfter]))
      · split at h <;> cases h <;> exact .inr (.inr (by simp [exitRun, *, pcAfter, heldForInput]))
  | beq rs rt imm =>
    simp only [exec, execBeq] at h
    split at h <;> cases h
    · rcases s.transfer_cases (s.branchTarget imm) with ⟨a, b, e⟩ | ⟨-, -, e⟩ | ⟨-, e⟩ <;> rw [e]
      · exact .inr (.inr (by simp_all [pcAfter, patternsEqual, State.branchTarget, sext16_eq_toInt, heldForInput]))
      · exact .inl ⟨_, rfl⟩
      · exact .inl ⟨_, rfl⟩
    · exact .inr (.inr (by simp_all [pcAfter, patternsEqual, heldForInput]))
  | bne rs rt imm =>
    simp only [exec, execBne] at h
    split at h <;> cases h
    · exact .inr (.inr (by simp_all [pcAfter, patternsEqual, heldForInput]))
    · rcases s.transfer_cases (s.branchTarget imm) with ⟨a, b, e⟩ | ⟨-, -, e⟩ | ⟨-, e⟩ <;> rw [e]
      · exact .inr (.inr (by simp_all [pcAfter, patternsEqual, State.branchTarget, sext16_eq_toInt, heldForInput]))
      · exact .inl ⟨_, rfl⟩
      · exact .inl ⟨_, rfl⟩
  | j a =>
    simp only [exec, execJ] at h
    cases h
    rcases s.transfer_cases (jumpTarget a) with ⟨h1, h2, e⟩ | ⟨-, -, e⟩ | ⟨-, e⟩ <;> rw [e]
    · exact .inr (.inr (by simp_all [pcAfter, jumpTarget, heldForInput]))
    · exact .inl ⟨_, rfl⟩
    · exact .inl ⟨_, rfl⟩
  | lw rt rs imm =>
    simp only [exec, execLw] at h
    rcases s.memRead_cases (s.effectiveAddress rs imm) with ⟨-, e⟩ | ⟨-, e⟩ <;>
      (rw [e] at h; cases h)
    · exact .inr (.inr (by simp [hs, pcAfter, heldForInput]))
    · exact .inl ⟨_, rfl⟩
  | sw rt rs imm =>
    simp only [exec, execSw] at h
    rcases s.memWrite_cases (s.effectiveAddress rs imm) (s.readField rt) with ⟨-, e⟩ | ⟨-, e⟩ <;>
      (rw [e] at h; cases h)
    · exact .inr (.inr (by simp [hs, pcAfter, heldForInput]))
    · exact .inl ⟨_, rfl⟩
  | _ => cases h; exact .inr (.inr (by simp [hs, pcAfter, heldForInput]))

/-- What a step can do: end the run past the last word, raise a `DecodeError`, hold for input, or execute one instruction and
end the step. -/
theorem step_cases {s t : State} (h : step s = .next t) :
    s.runState = .running ∧
    ((s.nI ≤ s.pc ∧ t = s.haltNormal) ∨
     (s.pc < s.nI ∧ supported s.fetch = false ∧ t = s.takeFault (.decodeError s.fetch s.pc)) ∨
     (∃ i, s.pc < s.nI ∧ decode s.fetch = .ok i ∧ heldForInput i s = true ∧ t = s) ∨
     (∃ i u, s.pc < s.nI ∧ decode s.fetch = .ok i ∧ heldForInput i s = false ∧ exec i s = .next u ∧
        t = finishStep s.pc s.fetch u)) := by
  unfold step at h
  split at h
  · next hr =>
    refine ⟨hr, ?_⟩
    unfold runCycle at h
    split at h
    · next hpc =>
      unfold runWord at h
      split at h
      · next i hd =>
        unfold runInstr at h
        split at h
        · next hh => cases h; exact .inr (.inr (.inl ⟨i, hpc, hd, hh, rfl⟩))
        · next hh =>
          obtain ⟨u, hu⟩ := exec_next i s
          rw [hu] at h
          cases h
          exact .inr (.inr (.inr ⟨i, u, hpc, hd, by simpa using hh, hu, rfl⟩))
      · next e hd =>
        cases h
        exact .inr (.inl ⟨hpc, by simp [supported, hd, Except.isOk, Except.toBool], rfl⟩)
    · next hpc => cases h; exact .inl ⟨by omega, rfl⟩
  · cases h
  · cases h

end Sys2Proof.Machine
end

