-- ==== Sys2Proof/Tests/Slice0.lean ====
section
/-! SUPPORT. Tests: well-formedness, every constructor's decoding, one step of each instruction, launch, and for each
obligation with hypotheses a concrete case that meets them. Every expected value is a row of `95_test_vectors.md` (its id in
the docstring) or follows from the rule named; the encodings come from the rows of section 2.1. -/

namespace Sys2Proof.Tests

open Sys2Proof Sys2Proof.Machine

/-! ## Helpers -/

/-- A running machine with the given counts, pc, registers and memory. -/
def machine (nI nW pc : Nat) (regs : List (RegIndex × Word)) (mem : Memory) : State :=
  { State.reset with nI := nI, nW := nW, pc := pc, mem := mem,
                     regs := regs.foldl (fun v p => v.set p.1 p.2) State.reset.regs }

/-- The next state, if there is one. -/
def answer : Host.Outcome State Fault Refusal → Option State
  | .next t => some t
  | .fault _ => none
  | .refused _ => none

/-- One step of the instruction of bits `w`, seen through `view`. -/
def stepOf {α : Type} (s : State) (w : Nat) (view : State → α) : Option α :=
  (answer (step (s.withFetchWord 32 w))).map view

/-- The machine of section 2.2: `$t0` and `$t1` set, at index 2 of 10. -/
def alu (a b : Word) : State := machine 10 4 2 [(8, a), (9, b)] []

/-- The machine of sections 2.6 and 2.7: `nI = 10`, `nW = 4`, `dmem = [0x11, 0x22, 0x33, 0x44]`, `$gp = 10`. -/
def board (pc : Nat) (regs : List (RegIndex × Word)) : State :=
  machine 10 4 pc ((28, 10) :: regs) [(10, 0x11), (11, 0x22), (12, 0x33), (13, 0x44)]

/-! ## Well-formedness of the program image -/

/-- An image of section 3 is taken: P2. -/
def imageP2 : ProgramImage :=
  { numInstructions := 7, numWords := 2,
    instructionWords := [0x8F880000, 0x25080023, 0xAF880001, 0x8F890001, 0x01202021, 0x24020001, 0x0000000C],
    dataWords := [7, 0] }

/-- One instruction word for a count of two. -/
def imageShortProgram : ProgramImage :=
  { numInstructions := 2, numWords := 0, instructionWords := [0x24080001], dataWords := [] }

/-- One data word for a count of none. -/
def imageLongData : ProgramImage :=
  { numInstructions := 1, numWords := 0, instructionWords := [0x24080001], dataWords := [7] }

/-- The counts of an image one word past the bound of R9. -/
def imagePastBound : ProgramImage :=
  { numInstructions := 1, numWords := 2 ^ 31 - 32768, instructionWords := [0x24080001], dataWords := [] }

theorem test_image_taken : imageP2.wellFormed = true := by decide
theorem test_image_short_program : imageShortProgram.countsMatch = false ∧ imageShortProgram.wellFormed = false := by decide
theorem test_image_long_data : imageLongData.countsMatch = false ∧ imageLongData.wellFormed = false := by decide
theorem test_image_past_bound : imagePastBound.inBound = false ∧ imagePastBound.wellFormed = false := by decide

/-! ## Decoding: every constructor, by the words of section 2.1 -/

theorem test_decode_alu :
    decode 0x01095021#32 = .ok (.addu 10 8 9) ∧ decode 0x01095023#32 = .ok (.subu 10 8 9) ∧
    decode 0x01095024#32 = .ok (.and 10 8 9) ∧ decode 0x01095025#32 = .ok (.or 10 8 9) ∧
    decode 0x0109502A#32 = .ok (.slt 10 8 9) := by decide

theorem test_decode_muldiv :
    decode 0x01090018#32 = .ok (.mult 8 9) ∧ decode 0x0109001A#32 = .ok (.div 8 9) ∧
    decode 0x00005010#32 = .ok (.mfhi 10) ∧ decode 0x00005012#32 = .ok (.mflo 10) := by decide

theorem test_decode_system_immediate :
    decode 0x0000000C#32 = .ok .syscall ∧ decode 0x25090064#32 = .ok (.addiu 9 8 100) := by decide

theorem test_decode_control :
    decode 0x1109FFFD#32 = .ok (.beq 8 9 0xFFFD) ∧ decode 0x15090005#32 = .ok (.bne 8 9 5) ∧
    decode 0x08123456#32 = .ok (.j 1193046) := by decide

theorem test_decode_memory :
    decode 0x8F88FFFC#32 = .ok (.lw 8 28 0xFFFC) ∧ decode 0xAF880004#32 = .ok (.sw 8 28 4) := by decide

/-- V-E1 and V-E6 written field by field in binary (R50): opcode, rs, rt, rd, shamt, funct. -/
theorem test_decode_bits :
    decode (0b000000#6 ++ 0b01001#5 ++ 0b01010#5 ++ 0b01001#5 ++ 0b00000#5 ++ 0b100011#6) = .ok (.subu 9 9 10) ∧
    decode (0b000000#6 ++ 0b11111#5 ++ 0b11111#5 ++ 0b11111#5 ++ 0b11111#5 ++ 0b001100#6) = .ok .syscall := by decide

/-- V-E8 to V-E12. -/
theorem test_decode_rejects :
    decode 0x00000000#32 = .error (.unsupportedFunct 0) ∧ decode 0x00084080#32 = .error (.unsupportedFunct 0) ∧
    decode 0x0000000F#32 = .error (.unsupportedFunct 0x0F) ∧ decode 0x3C080001#32 = .error (.unsupportedOpcode 0x0F) ∧
    decode 0xFFFFFFFF#32 = .error (.unsupportedOpcode 0x3F) := by decide

/-- The host's word interface reads the same instruction, and none where the decoder refuses. -/
theorem test_decode_table_word :
    decodeTableWord 32 0x012A4823 = some (.subu 9 9 10) ∧ decodeTableWord 32 0x3C080001 = none := by decide

/-- R61, the worked texts of section 2.1 and of P1 (V-E2, V-E3, V-E4). -/
theorem test_text :
    disassemble .decimal 0x8F88FFFC#32 = some "lw\t$t0,-4($gp)" ∧ disassemble .decimal 0x08123456#32 = some "j 1193046" ∧
    disassemble .decimal 0x25288000#32 = some "addiu\t$t0,$t1,32768" ∧
    disassemble .decimal 0x012A4823#32 = some "subu\t$t1,$t1,$t2" ∧ disassemble .decimal 0x3C080001#32 = none := by decide

/-! ## One step of each instruction -/

/-- V-A2 and V-A9. -/
theorem test_addu_wraps :
    stepOf (alu 0x7FFFFFFF 1) 0x01095021 (fun t => (t.readReg 10, t.pc)) = some (0x80000000, 3) := by decide
theorem test_addu_to_zero :
    stepOf (alu 10 5) 0x01090021 (fun t => (t.regs, t.pc)) = some ((alu 10 5).regs, 3) := by decide

/-- V-A6. -/
theorem test_subu_wraps :
    stepOf (alu 0x80000000 1) 0x01095023 (fun t => (t.readReg 10, t.pc)) = some (0x7FFFFFFF, 3) := by decide

/-- V-A10, V-A11. -/
theorem test_and : stepOf (alu 0xF0F0F0F0 0x0FF00FF0) 0x01095024 (·.readReg 10) = some 0x00F000F0 := by decide
theorem test_or : stepOf (alu 0xF0F0F0F0 0x0FF00FF0) 0x01095025 (·.readReg 10) = some 0xFFF0FFF0 := by decide

/-- V-A12, V-A15. -/
theorem test_slt_negative : stepOf (alu 0xFFFFFFFF 0) 0x0109502A (·.readReg 10) = some 1 := by decide
theorem test_slt_extremes : stepOf (alu 0x7FFFFFFF 0x80000000) 0x0109502A (·.readReg 10) = some 0 := by decide

/-- V-D14, V-D3. -/
theorem test_div_negative_dividend :
    stepOf (alu 0xFFFE0001 7) 0x0109001A (fun t => (t.readReg 32, t.readReg 33)) = some (0xFFFFB6DC, 0xFFFFFFFD) := by
  decide
theorem test_div_negative_divisor :
    stepOf (alu 7 0xFFFFFFFE) 0x0109001A (fun t => (t.readReg 32, t.readReg 33)) = some (0xFFFFFFFD, 1) := by decide

/-- V-M6, V-M10. -/
theorem test_mult_extremes :
    stepOf (alu 0x80000000 0x7FFFFFFF) 0x01090018 (fun t => (t.readReg 32, t.readReg 33)) =
      some (0x80000000, 0xC0000000) := by decide
theorem test_mult_past_signed :
    stepOf (alu 46341 46341) 0x01090018 (fun t => (t.readReg 32, t.readReg 33)) = some (0x80001219, 0) := by decide

/-- V-H1, V-H2 (P3 words `0x00006010` and `0x00005812`). -/
theorem test_mfhi :
    stepOf (machine 10 4 2 [(32, 0xFFFFB6DC), (33, 0xFFFFFFFD)] []) 0x00006010 (·.readReg 12) = some 0xFFFFFFFD := by decide
theorem test_mflo :
    stepOf (machine 10 4 2 [(32, 0xFFFFB6DC), (33, 0xFFFFFFFD)] []) 0x00005812 (·.readReg 11) = some 0xFFFFB6DC := by decide

/-- V-S2. -/
theorem test_syscall_prints_signed :
    stepOf (machine 10 4 2 [(2, 1), (4, 0xFFFFFFF8)] []) 0x0C (fun t => (t.out, t.runState, t.pc)) =
      some ([-8], .running, 3) := by decide

/-- V-S4: the selector is the value of `$v0` at dispatch. -/
theorem test_syscall_reads_ten :
    stepOf { machine 10 4 2 [(2, 5)] [] with inp := [10] } 0x0C (fun t => (t.readReg 2, t.inp, t.runState)) =
      some (10, [], .running) := by decide

/-- V-I1, V-I3 (`addiu $t0,$zero,65535` and `addiu $t1,$t0,1`). -/
theorem test_addiu_zero_extends : stepOf (alu 0 0) 0x2408FFFF (·.readReg 8) = some 0x0000FFFF := by decide
theorem test_addiu_wraps : stepOf (alu 0x7FFFFFFF 0) 0x25090001 (·.readReg 9) = some 0x80000000 := by decide

/-- V-B5, V-B9. -/
theorem test_beq_to_last :
    stepOf (board 4 []) 0x10000005 (fun t => (t.pc, t.runState)) = some (9, .running) := by decide
theorem test_beq_below_zero :
    stepOf (board 4 []) 0x1000FFFB (fun t => (t.pc, t.runState)) =
      some (4, .haltedFault (.controlFlowFault (-1) .illegal)) := by decide

/-- V-B3, V-B12. -/
theorem test_bne_backwards : stepOf (board 5 [(8, 5), (9, 6)]) 0x1509FFFE (·.pc) = some 3 := by decide
theorem test_bne_runs_off :
    stepOf (board 9 []) 0x14000001 (fun t => (t.pc, t.runState)) = some (10, .haltedNormal) := by decide

/-- V-J2, V-J5. -/
theorem test_j_to_last : stepOf (board 7 []) 0x08000009 (·.pc) = some 9 := by decide
theorem test_j_far :
    stepOf (board 7 []) 0x0BFFFFFF (fun t => (t.pc, t.runState)) =
      some (7, .haltedFault (.controlFlowFault 67108863 .illegal)) := by decide

/-- V-L13, V-L9. -/
theorem test_lw_over_base : stepOf (board 2 []) 0x8F9C0001 (fun t => (t.readReg 28, t.pc)) = some (0x22, 3) := by decide
theorem test_lw_exact_address :
    stepOf (board 2 [(9, 0x80000000)]) 0x8D28FFFF (·.runState) =
      some (.haltedFault (.memoryFault (-2147483649))) := by decide

/-- V-L6, V-L4. -/
theorem test_sw :
    stepOf (board 2 [(8, 0xFFFFFFFE)]) 0xAF880000 (fun t => (t.dmem 0, t.dmem 1)) = some (0xFFFFFFFE, 0x22) := by decide
theorem test_sw_outside :
    stepOf (board 2 [(8, 5)]) 0xAF880004 (fun t => (t.runState, (List.range 4).map t.dmem)) =
      some (.haltedFault (.memoryFault 14), [0x11, 0x22, 0x33, 0x44]) := by decide

/-! ## Launch -/

/-- The image of some instruction words, and no data. -/
def program (ws : List Word) : ProgramImage :=
  { numInstructions := ws.length, numWords := 0, instructionWords := ws, dataWords := [] }

/-- V-R1: the empty program. `State.reset` is its reset state (log entry 1). -/
theorem test_launch_empty :
    answer (launch Config.default ProgramImage.empty []) = some { State.reset with runState := .haltedNormal } ∧
    resetState Config.default ProgramImage.empty [] = State.reset := by decide

/-- V-R3, V-R6: the eager scan. -/
theorem test_launch_scan :
    (answer (launch Config.default (program [0x24080001, 0x00000000]) [])).map (·.runState) =
      some (.haltedFault (.decodeError 0 1)) ∧
    (answer (launch Config.default (program [0x08000002, 0x00000000, 0x24080001]) [])).map (·.runState) =
      some (.haltedFault (.decodeError 0 1)) := by decide

/-- V-R4, and V-R6 without the scan: the illegal word at index 1 is never fetched. -/
theorem test_launch_without_scan :
    (answer (launch { Config.default with eagerRValidation := false }
      (program [0x08000002, 0x00000000, 0x24080001]) [])).map (·.runState) = some .running ∧
    (answer (launch Config.default (program [0x08000002, 0x3C080001, 0x24080001]) [])).map (·.runState) =
      some .running := by decide

/-- V-R5: no event for a word of no row. -/
theorem test_decode_error_at_dispatch :
    (answer (step (resetState Config.default (program [0x3C080001]) []))).map (fun t => (t.runState, t.trace)) =
      some (.haltedFault (.decodeError 0x3C080001 0), []) := by decide

/-- V-R7: one event, no snapshot. -/
theorem test_last_event :
    (answer (step (resetState Config.default (program [0x00000021]) []))).map (fun t => (t.runState, t.pc, t.trace)) =
      some (.haltedNormal, 1, [{ pc := 0, word := 0x00000021, snapshot := none }]) := by decide

/-- The host's word is the first instruction to run after reset. -/
theorem test_fetch_word :
    (answer (step (State.reset.withFetchWord 32 0x24080001))).map (fun t => (t.readReg 8, t.pc)) = some (1, 1) := by decide

/-- V-E4's word in a launched run of each radix (R10): the text follows the launch's parameter (the hexadecimal form is log
entry 8's), and the snapshot's first and last values stand under their labels (R102). -/
def shownStep (radix : TextRadix) : Option (List TraceLine) :=
  (answer (launch { Config.default with textRadix := radix }
    { numInstructions := 2, numWords := 1, instructionWords := [0x25288000, 0x00000021], dataWords := [7] } [])).bind
    fun s => (answer (step s)).map State.shownTrace

theorem test_text_radix :
    (shownStep .decimal).map (fun l => l.map (·.text)) = some [some "addiu\t$t0,$t1,32768"] ∧
    (shownStep .hexadecimal).map (fun l => l.map (·.text)) = some [some "addiu\t$t0,$t1,0x8000"] := by decide

theorem test_snapshot_labels :
    ((shownStep .decimal).bind (·.head?)).bind (fun e => e.snapshot.map (·.drop 32)) =
      some [(.register "LO", 0), (.register "HI", 0), (.address 2, 7)] ∧
    ((shownStep .decimal).bind (·.head?)).bind (fun e => e.snapshot.bind (·[8]?)) = some (.register "$t0", 32768) := by
  decide

/-! ## Witnesses: a case that meets the hypotheses of each obligation that has any -/

/-- V-E7 with its ignored bits set. -/
theorem witness_EncodeAfterDecodeKeepsUsedBits :
    decode 0x0108FFD8#32 = .ok (.mult 8 8) ∧ 0x0108FFD8#32 &&& usedBits (.mult 8 8) = 0x01080018#32 := by decide

theorem witness_IgnoredFieldsDoNotMatter :
    decode (wordR 8 9 31 31 0x1A) = .ok (.div 8 9) ∧ decode (wordR 8 9 31 31 0x18) = .ok (.mult 8 9) ∧
    decode (wordR 1 2 10 5 0x10) = .ok (.mfhi 10) ∧ decode (wordR 1 2 10 5 0x12) = .ok (.mflo 10) ∧
    decode (wordR 31 31 31 31 0x0C) = .ok .syscall := by decide

/-- One row of each mask. -/
theorem witness_RowSelectsByMaskAndMatch :
    (⟨"subu", 0xFC00003F#32, 0x00000023#32⟩ : Row) ∈ opcodeTable ∧ 0x012A4823#32 &&& 0xFC00003F#32 = 0x00000023#32 ∧
    (⟨"j", 0xFC000000#32, 0x08000000#32⟩ : Row) ∈ opcodeTable ∧ 0x08123456#32 &&& 0xFC000000#32 = 0x08000000#32 := by
  decide

theorem witness_TextShowsNoIgnoredField :
    decode 0x0108FFD8#32 = .ok (.mult 8 8) ∧
    0x01080018#32 &&& usedBits (.mult 8 8) = 0x0108FFD8#32 &&& usedBits (.mult 8 8) := by decide

/-- P2's image, and its reset state (V-R2's shape). -/
theorem witness_ResetStateOfImage :
    imageP2.wellFormed = true ∧ (resetState Config.default imageP2 []).readReg 28 = 7 ∧
    (resetState Config.default imageP2 []).dmem 0 = 7 ∧ (resetState Config.default imageP2 []).imem 6 = 0x0000000C := by
  decide

/-- V-R6: index 1 is the lowest the scan rejects; V-R4: the scan rejects nothing; V-R1: nothing to scan. -/
theorem witness_LaunchScanThenEmptyProgram :
    (program [0x08000002, 0x00000000, 0x00000000]).wellFormed = true ∧
    (resetState Config.default (program [0x08000002, 0x00000000, 0x00000000]) []).firstIllegalR = some 1 ∧
    (resetState Config.default (program [0x08000002, 0x3C080001, 0x24080001]) []).firstIllegalR = none ∧
    ProgramImage.empty.wellFormed = true := by decide

/-- Images past the bound of R9 whose lengths do match their counts are refused for their size. -/
theorem witness_image_too_large (n : Nat) (hn : 2 ^ 31 - 32768 < n) :
    launch Config.default
      { numInstructions := 0, numWords := n, instructionWords := [], dataWords := List.replicate n 0 } [] =
        .refused .imageTooLarge := by
  simp [launch, ProgramImage.countsMatch, ProgramImage.inBound, maxUnifiedWords]
  omega

/-- The two grounds of a refusal of the counts, and a launch that is taken. -/
theorem witness_LaunchRefusesOtherImages :
    launch Config.default imageShortProgram [] = .refused .imageCountsDiffer ∧
    launch Config.default imageLongData [] = .refused .imageCountsDiffer ∧
    (answer (launch Config.default imageP2 [])).isSome = true := ⟨rfl, rfl, by decide⟩

theorem witness_LaunchMeetsInvariant :
    ∃ t, launch Config.default imageP2 [] = .next t ∧ t.runState = .running ∧ t.dmem 0 = 7 := ⟨_, rfl, by decide⟩

/-- P2's reset state, running. -/
def startP2 : State := resetState Config.default imageP2 []

theorem witness_StepKeepsInvariant :
    startP2.Inv ∧ ∃ t, step startP2 = .next t ∧ t.runState = .running ∧ t.readReg 8 = 7 := by
  refine ⟨⟨by decide, by decide, by decide, by decide, by decide, by decide, ?_, ?_⟩, _, rfl, by decide⟩
  · intro e h; cases h
  · intro f h; cases h

theorem witness_RunNeverChangesItsProgram :
    launch Config.default imageP2 [] = .next startP2 ∧ ∃ t, Reachable startP2 t ∧ t.pc = 1 ∧ t.inp = [3] :=
  ⟨rfl, _, .supplied _ [3] (.stepped startP2 _ .start rfl), by decide⟩

theorem witness_StepRunsDecodedInstruction :
    startP2.runState = .running ∧ startP2.pc < startP2.nI ∧
    decode (startP2.mem.read startP2.pc) = .ok (.lw 8 28 0) := by decide

/-- V-R5. -/
theorem witness_StepRaisesDecodeError :
    (machine 1 0 0 [] [(0, 0x3C080001)]).runState = .running ∧ supported 0x3C080001#32 = false ∧
    (machine 1 0 0 [] [(0, 0x3C080001)]).imem 0 = 0x3C080001 := by decide

theorem witness_StepIsDefinedExactlyWhileRunning :
    startP2.runState = .running ∧ startP2.haltNormal.runState ≠ .running ∧
    (startP2.takeFault .arithmeticFault).runState ≠ .running := by decide

/-- V-S5: `syscall` with `$v0 = 5` at index 0 of 2. -/
def waiting : State := machine 2 0 0 [(2, 5)] [(0, 0x0000000C), (1, 0x00000021)]

theorem witness_ReadServiceWaitsForInput :
    waiting.runState = .running ∧ waiting.pc < waiting.nI ∧ decode (waiting.imem waiting.pc) = .ok .syscall ∧
    S (waiting.readReg 2) = 5 ∧ waiting.inp = [] := by decide

/-- The exit syscall at index 0 of 2 (V-S6), a word off the end (V-R7), a division by zero (P5). -/
def exiting : State := machine 2 0 0 [(2, 10)] [(0, 0x0000000C), (1, 0x00000021)]
def lastWord : State := machine 1 0 0 [] [(0, 0x00000021)]
def dividing : State := machine 1 0 0 [] [(0, 0x0109001A)]

/-- A `DecodeError`; an instruction after which the run continues; one after which it does not. -/
theorem witness_StepEmitsOneEvent :
    (∃ t, step (machine 1 0 0 [] [(0, 0x3C080001)]) = .next t ∧ t.trace = []) ∧
    (∃ t, step startP2 = .next t ∧ heldForInput (.lw 8 28 0) startP2 = false ∧ t.runState = .running) ∧
    (∃ t, step lastWord = .next t ∧ heldForInput (.addu 0 0 0) lastWord = false ∧ t.runState = .haltedNormal) :=
  ⟨⟨_, rfl, by decide⟩, ⟨_, rfl, by decide⟩, ⟨_, rfl, by decide⟩⟩

/-- Halting by the exit syscall with `pc < nI`; by the pc bound; going on. -/
theorem witness_HaltCheckAfterExecution :
    (∃ t, step exiting = .next t ∧ t.runState = .haltedNormal ∧ t.pc < t.nI) ∧
    (∃ t, step lastWord = .next t ∧ t.runState = .haltedNormal ∧ t.pc = t.nI) ∧
    (∃ t, step startP2 = .next t ∧ t.runState = .running) :=
  ⟨⟨_, rfl, by decide⟩, ⟨_, rfl, by decide⟩, ⟨_, rfl, by decide⟩⟩

/-- A fault; a taken branch to index 0 (V-B13's kind); a completed `lw`. -/
theorem witness_PcMovesByTheTable :
    (∃ t, step dividing = .next t ∧ t.runState = .haltedFault .arithmeticFault ∧ t.pc = 0) ∧
    (∃ t, step (machine 2 0 1 [] [(0, 0x00000021), (1, 0x1000FFFF)]) = .next t ∧ t.runState = .running ∧ t.pc = 0) ∧
    (∃ t, step startP2 = .next t ∧ t.runState = .running ∧ t.pc = 1) :=
  ⟨⟨_, rfl, by decide⟩, ⟨_, rfl, by decide⟩, ⟨_, rfl, by decide⟩⟩

theorem witness_RunningPcStaysInProgram :
    ∃ t, step startP2 = .next t ∧ t.runState = .running ∧ t.pc < t.nI := ⟨_, rfl, by decide⟩

/-- P5 (one header, no snapshot), V-R5 (no event) and V-R3 (at launch). -/
theorem witness_FaultsArePrecise :
    (∃ t, step dividing = .next t ∧ t.runState = .haltedFault .arithmeticFault ∧
      t.trace = [{ pc := 0, word := 0x0109001A, snapshot := none }]) ∧
    (∃ t, step (machine 1 0 0 [] [(0, 0x3C080001)]) = .next t ∧
      t.runState = .haltedFault (.decodeError 0x3C080001 0) ∧ t.trace = []) ∧
    (∃ t, launch Config.default (program [0x24080001, 0x00000000]) [] = .next t ∧
      t.runState = .haltedFault (.decodeError 0 1)) :=
  ⟨⟨_, rfl, by decide⟩, ⟨_, rfl, by decide⟩, ⟨_, rfl, by decide⟩⟩

/-- Each fault of each clause: division by zero, the overflow, the two sub-kinds at `nI`, `nI + nW - 1`, `nI + nW` and -1,
a memory fault. -/
theorem witness_FaultCausesByInstruction :
    (∃ t, exec (.div 8 9) (board 4 []) = .next t ∧ t.runState = .haltedFault .arithmeticFault) ∧
    (∃ t, exec (.div 8 9) { alu 0x80000000 0xFFFFFFFF with config := { Config.default with divOverflow := .fault } } =
      .next t ∧ t.runState = .haltedFault .arithmeticFault) ∧
    (∃ t, exec (.beq 0 0 6) (board 4 []) = .next t ∧ t.runState = .haltedFault (.controlFlowFault 10 .inData)) ∧
    (∃ t, exec (.bne 0 28 9) (board 4 []) = .next t ∧ t.runState = .haltedFault (.controlFlowFault 13 .inData)) ∧
    (∃ t, exec (.j 14) (board 4 []) = .next t ∧ t.runState = .haltedFault (.controlFlowFault 14 .illegal)) ∧
    (∃ t, exec (.beq 0 0 0xFFFB) (board 4 []) = .next t ∧
      t.runState = .haltedFault (.controlFlowFault (-1) .illegal)) ∧
    (∃ t, exec (.lw 0 28 0xFFFF) (board 4 []) = .next t ∧ t.runState = .haltedFault (.memoryFault 9)) :=
  ⟨⟨_, rfl, by decide⟩, ⟨_, rfl, by decide⟩, ⟨_, rfl, by decide⟩, ⟨_, rfl, by decide⟩, ⟨_, rfl, by decide⟩,
    ⟨_, rfl, by decide⟩, ⟨_, rfl, by decide⟩⟩

/-- A machine whose next word is `sw $t0,0($gp)` over the first data word. -/
def storing : State := machine 1 1 0 [(8, 5), (28, 1)] [(0, 0xAF880000), (1, 7)]

theorem witness_StepKeepsProgramAndCounts :
    ∃ t, step storing = .next t ∧ 0 < storing.nI ∧ t.imem 0 = 0xAF880000 := ⟨_, rfl, by decide⟩

theorem witness_OnlyStoresChangeMemory :
    ∃ t, step storing = .next t ∧ t.mem.read 1 ≠ storing.mem.read 1 := ⟨_, rfl, by decide⟩

/-- Service 1 and service 5. -/
theorem witness_ChannelsOnlyMoveForward :
    (∃ t, step (machine 1 0 0 [(2, 1), (4, 7)] [(0, 0x0C)]) = .next t ∧ t.out = [7]) ∧
    (∃ t, step (waiting.supplyInput [21]) = .next t ∧ t.inp = [] ∧ t.readReg 2 = 21) :=
  ⟨⟨_, rfl, by decide⟩, ⟨_, rfl, by decide⟩⟩

/-- A `mult` that writes HI and LO (V-M9), and a step that does not. -/
theorem witness_OnlyMultAndDivWriteHiLo :
    (∃ t, step (machine 1 0 0 [(8, 65536)] [(0, 0x01080018)]) = .next t ∧ t.readReg 33 = 1 ∧ t.readReg 32 = 0) ∧
    (∃ t, step startP2 = .next t ∧ t.readReg 33 = 0) := ⟨⟨_, rfl, by decide⟩, ⟨_, rfl, by decide⟩⟩

/-- An instruction whose destination is register 0, in a state where it reads 0. -/
theorem witness_RegisterZeroIsNeverWritten :
    (∃ t, exec (.addu 0 8 9) (alu 10 5) = .next t ∧ t.readReg 0 = 0) ∧ (∃ t, step lastWord = .next t ∧ t.readReg 0 = 0) :=
  ⟨⟨_, rfl, by decide⟩, ⟨_, rfl, by decide⟩⟩

/-- A register outside the write set; a faulting instruction. -/
theorem witness_OnlyListedRegistersAreWritten :
    (9 ∉ writeSet (.addu 10 8 9) (alu 10 5) ∧ ∃ t, exec (.addu 10 8 9) (alu 10 5) = .next t ∧ t.readReg 10 = 15) ∧
    (∃ t, exec (.lw 8 28 0xFFFF) (board 2 []) = .next t ∧ t.runState = .haltedFault (.memoryFault 9)) :=
  ⟨⟨by decide, _, rfl, by decide⟩, ⟨_, rfl, by decide⟩⟩

theorem witness_UnreadRegistersDoNotMatter :
    10 ∉ readSet (.addu 10 8 9) (alu 10 5) ∧ (∃ t, exec (.addu 10 8 9) (alu 10 5) = .next t ∧ t.readReg 10 = 15) ∧
    ∃ u, exec (.addu 10 8 9) ((alu 10 5).poke 10 77) = .next u ∧ u.readReg 10 = 15 :=
  ⟨by decide, ⟨_, rfl, by decide⟩, ⟨_, rfl, by decide⟩⟩

/-- The three kinds of write: a new word, one over a listed word, and a zero, which unlists it. -/
theorem witness_MemoryReadAfterWrite :
    Memory.wf [(10, 0x11), (12, 0x33)] ∧ Memory.write [(10, 0x11), (12, 0x33)] 11 5 = [(10, 0x11), (11, 5), (12, 0x33)] ∧
    Memory.write [(10, 0x11), (12, 0x33)] 12 5 = [(10, 0x11), (12, 5)] ∧
    Memory.write [(10, 0x11), (12, 0x33)] 10 0 = [(12, 0x33)] := by decide

/-- Two histories of writes with one result. -/
theorem witness_CanonicalMemoriesAreEqual :
    Memory.wf (Memory.write (Memory.write [] 5 1) 3 2) ∧ Memory.wf (Memory.write (Memory.write [] 3 2) 5 1) ∧
    Memory.write (Memory.write [] 5 1) 3 2 = Memory.write (Memory.write [] 3 2) 5 1 := by decide

/-- The selectors of each word named in an instruction's statement, by the words of section 2.1. -/
theorem witness_decode_clauses_R :
    [0x01095021#32, 0x01095024#32, 0x01095025#32, 0x0109502A#32, 0x01095023#32].map
      (fun w => (opcodeOf w, functOf w)) = [(0, 0x21), (0, 0x24), (0, 0x25), (0, 0x2A), (0, 0x23)] ∧
    [0x0109001A#32, 0x01090018#32, 0x00005010#32, 0x00005012#32, 0x0000000C#32].map
      (fun w => (opcodeOf w, functOf w)) = [(0, 0x1A), (0, 0x18), (0, 0x10), (0, 0x12), (0, 0x0C)] := by decide

theorem witness_decode_clauses_IJ :
    [0x25090064#32, 0x1109FFFD#32, 0x15090005#32, 0x08123456#32, 0x8F88FFFC#32, 0xAF880004#32].map opcodeOf =
      [0x09, 0x04, 0x05, 0x02, 0x23, 0x2B] := by decide

/-- Less, and the boundary of not less: equal (V-A12, V-A16). -/
theorem witness_SltComparesSigned :
    S ((alu 0xFFFFFFFF 0).readField 8) < S ((alu 0xFFFFFFFF 0).readField 9) ∧
    S ((alu 5 5).readField 9) ≤ S ((alu 5 5).readField 8) := by decide

/-- Zero; the overflow pair under each parameter; the pairs beside it (V-D10, V-D11), which are ordinary. -/
theorem witness_DivTruncatesOrFaults :
    S ((alu 5 0).readField 9) = 0 ∧
    (S ((alu 0x80000000 0xFFFFFFFF).readField 8) = -(2 ^ 31) ∧ S ((alu 0x80000000 0xFFFFFFFF).readField 9) = -1 ∧
      (alu 0x80000000 0xFFFFFFFF).config.divOverflow = .wrap) ∧
    ({ Config.default with divOverflow := .fault } : Config).divOverflow = .fault ∧
    (S ((alu 0x80000000 1).readField 9) ≠ 0 ∧ S ((alu 0x80000000 1).readField 9) ≠ -1) ∧
    (S ((alu 0x7FFFFFFF 0xFFFFFFFF).readField 9) = -1 ∧ S ((alu 0x7FFFFFFF 0xFFFFFFFF).readField 8) ≠ -(2 ^ 31)) := by
  decide

/-- V-D9, V-D10, V-D11: the boundary pairs of `div` themselves. -/
theorem witness_div_boundaries :
    stepOf (alu 0x80000000 0xFFFFFFFF) 0x0109001A (fun t => (t.readReg 32, t.readReg 33)) = some (0x80000000, 0) ∧
    stepOf (alu 0x80000000 1) 0x0109001A (fun t => (t.readReg 32, t.readReg 33)) = some (0x80000000, 0) ∧
    stepOf (alu 0x7FFFFFFF 0xFFFFFFFF) 0x0109001A (fun t => (t.readReg 32, t.readReg 33)) = some (0x80000001, 0) := by
  decide

/-- Selector 1; 5 with an empty and a full input; 10; and a value beside each (V-S7 to V-S9, and 11). -/
theorem witness_SyscallServices :
    S ((machine 1 0 0 [(2, 1)] []).readReg 2) = 1 ∧ (S (waiting.readReg 2) = 5 ∧ waiting.inp = []) ∧
    (S ((waiting.supplyInput [21]).readReg 2) = 5 ∧ (waiting.supplyInput [21]).inp = [21]) ∧
    S (exiting.readReg 2) = 10 ∧
    ([0, 4, 0xFFFFFFFF, 11].map fun v => decide (S ((machine 1 0 0 [(2, v)] []).readReg 2) ∈ [1, 5, 10])) =
      [false, false, false, false] := by decide

/-- V-S7: a selector with no service only advances the pc. -/
theorem witness_syscall_other :
    answer (exec .syscall (machine 2 0 0 [(2, 4)] [])) = some (machine 2 0 1 [(2, 4)] []) := by decide

/-- V-B2, V-B5 to V-B9: not taken; taken to 0, `nI - 1`, `nI`, `nI + nW - 1`, `nI + nW` and -1. -/
theorem witness_BeqBranchesWhenEqual :
    (board 2 [(8, 5), (9, 6)]).readField 8 ≠ (board 2 [(8, 5), (9, 6)]).readField 9 ∧
    (board 4 []).readField 0 = (board 4 []).readField 0 ∧ (board 4 []).nI = 10 ∧ (board 4 []).nW = 4 ∧
    ([0xFFFC#16, 5, 6, 9, 10, 0xFFFB].map fun imm => ((board 4 []).pc : Int) + imm.toInt) = [0, 9, 10, 13, 14, -1] := by
  decide

/-- V-B10, V-B3 and the same targets. -/
theorem witness_BneBranchesWhenDifferent :
    (board 4 []).readField 0 = (board 4 []).readField 0 ∧ (board 4 []).readField 0 ≠ (board 4 []).readField 28 ∧
    ([0xFFFC#16, 5, 6, 9, 10, 0xFFFB].map fun imm => ((board 4 []).pc : Int) + imm.toInt) = [0, 9, 10, 13, 14, -1] := by
  decide

/-- V-J1 to V-J5: 0 and `nI - 1`; `nI` and `nI + nW - 1`; `nI + nW` and the largest field. -/
theorem witness_JumpGoesToItsField :
    (0#26).toNat < (board 7 []).nI ∧ (9#26).toNat < (board 7 []).nI ∧
    ((board 7 []).nI ≤ (10#26).toNat ∧ (13#26).toNat < (board 7 []).nI + (board 7 []).nW) ∧
    (board 7 []).nI + (board 7 []).nW ≤ (14#26).toNat ∧ (board 7 []).nI + (board 7 []).nW ≤ (0x3FFFFFF#26).toNat := by
  decide

/-- V-J6's kind: `j 0` at index 0. -/
theorem witness_JumpToItselfNeverEnds :
    (machine 1 0 0 [] [(0, 0x08000000)]).runState = .running ∧
    decode ((machine 1 0 0 [] [(0, 0x08000000)]).imem 0) = .ok (.j 0) ∧ (0#26).toNat = 0 := by decide

/-- V-L9, V-L10: both ends of the range, under the launch bound; and an address in the data region (V-L11). -/
theorem witness_EffectiveAddressIsExact :
    (board 2 []).nI + (board 2 []).nW ≤ 2 ^ 31 - 32768 ∧
    (board 2 [(9, 0x80000000)]).effectiveAddress 9 0x8000 = -(2 ^ 31) - 32768 ∧
    (board 2 [(9, 0x7FFFFFFF)]).effectiveAddress 9 0x7FFF = 2 ^ 31 + 32766 ∧
    (board 2 [(9, 0xFFFFFFFF)]).inDataRegion ((board 2 [(9, 0xFFFFFFFF)]).effectiveAddress 9 11) = true := by decide

/-- V-L1 to V-L4: the addresses `nI`, `nI + nW - 1`, `nI - 1` and `nI + nW`, in a canonical memory. -/
theorem witness_LoadsAndStores :
    (board 2 []).mem.wf ∧ 0 < (board 2 []).nW ∧
    ([0#16, 3, 0xFFFF, 4].map fun imm => (board 2 []).effectiveAddress 28 imm) = [10, 13, 9, 14] := by decide

/-- V-L6: the address named again through register 0. -/
theorem witness_LoadAfterStoreReturnsThePattern :
    (board 2 [(8, 0xFFFFFFFE)]).mem.wf ∧ (board 2 [(8, 0xFFFFFFFE)]).runState = .running ∧
    ∃ t, exec (.sw 8 28 0) (board 2 [(8, 0xFFFFFFFE)]) = .next t ∧ t.runState = .running ∧
      t.effectiveAddress 0 10 = (board 2 [(8, 0xFFFFFFFE)]).effectiveAddress 28 0 ∧
      ∃ u, exec (.lw 9 0 10) t = .next u ∧ u.readReg 9 = 0xFFFFFFFE :=
  ⟨by decide, by decide, _, rfl, by decide, by decide, _, rfl, by decide⟩

/-- A launched run whose event carries a snapshot, and one (V-R7) whose event carries none. -/
theorem witness_ShownTraceFollowsTextRadix :
    (launch Config.default imageP2 [] = .next startP2 ∧
      ∃ t, Reachable startP2 t ∧ t.trace.map (fun e => (e.pc, e.snapshot.isSome)) = [(0, true)]) ∧
    (∃ s t, launch Config.default (program [0x00000021]) [] = .next s ∧ Reachable s t ∧
      t.trace.map (fun e => (e.pc, e.snapshot.isSome)) = [(0, false)]) :=
  ⟨⟨rfl, _, .stepped startP2 _ .start rfl, by decide⟩, ⟨_, _, rfl, .stepped _ _ .start rfl, by decide⟩⟩

/-- A launch and a step in decimal, with the other radix beside them; and a halted state, where no step is. -/
theorem witness_TextRadixAffectsTextOnly :
    launch Config.default imageP2 [] = .next startP2 ∧ (startP2.withTextRadix .hexadecimal).config.textRadix = .hexadecimal ∧
    (∃ t, step startP2 = .next t ∧ t.readReg 8 = 7) ∧ step startP2.haltNormal = .fault .noStepWhenHalted :=
  ⟨rfl, rfl, ⟨_, rfl, by decide⟩, rfl⟩

end Sys2Proof.Tests
end

section
/-! PROOF. Obligation O9: the two readings of a 16-bit immediate (spec `00_scope.md` rule R13, `30_encoding.md` rule R54). -/

namespace Sys2Proof.Machine

theorem zext16_range (imm : ImmField) : 0 ≤ zext16 imm ∧ zext16 imm ≤ 65535 := by
  have := imm.isLt
  unfold zext16
  omega

theorem ofInt_zext16 (imm : ImmField) : BitVec.ofInt 16 (zext16 imm) = imm := by
  simp [zext16]

theorem ofInt_sext16 (imm : ImmField) : BitVec.ofInt 16 (sext16 imm) = imm := by
  rw [sext16_eq_toInt, BitVec.ofInt_toInt]

/-- Settles O9: `zext_16` is the unsigned reading and `sext_16` the signed one, and either narrows back to the field. -/
theorem immediateReadings : Obligations.ImmediateReadings := fun imm =>
  ⟨⟨(zext16_range imm).1, (zext16_range imm).2, ofInt_zext16 imm⟩,
    (sext16_range imm).1, (sext16_range imm).2, ofInt_sext16 imm⟩

end Sys2Proof.Machine
end

section
/-! PROOF. What a launch can do (spec `70_reset_and_hazards.md` rule R115), and obligation O12: what it refuses. -/

namespace Sys2Proof

/-- An image is well formed when its lengths match its counts (R99) and it keeps the bound (R9). -/
theorem ProgramImage.wellFormed_iff (img : ProgramImage) :
    img.wellFormed = true ↔ img.instructionWords.length = img.numInstructions ∧
      img.dataWords.length = img.numWords ∧ img.numInstructions + img.numWords ≤ maxUnifiedWords := by
  simp [ProgramImage.wellFormed, ProgramImage.countsMatch, ProgramImage.inBound, and_assoc]

namespace Machine

/-- A launch of a well-formed image is taken; any other image is refused. -/
theorem launch_cases (cfg : Config) (img : ProgramImage) (inp : List Word) :
    (img.wellFormed = true ∧ launch cfg img inp = .next (resetState cfg img inp).launchChecks) ∨
    (img.wellFormed = false ∧ ∃ r, launch cfg img inp = .refused r) := by
  unfold launch ProgramImage.wellFormed
  cases img.countsMatch <;> cases img.inBound <;> simp

theorem launch_refused_iff (cfg : Config) (img : ProgramImage) (inp : List Word) :
    (∃ r, launch cfg img inp = .refused r) ↔ ¬ img.wellFormed = true := by
  rcases launch_cases cfg img inp with ⟨hw, hl⟩ | ⟨hw, hl⟩ <;> simp [hw, hl]

theorem launch_next {cfg : Config} {img : ProgramImage} {inp : List Word} {s : State}
    (h : launch cfg img inp = .next s) : img.wellFormed = true ∧ s = (resetState cfg img inp).launchChecks := by
  rcases launch_cases cfg img inp with ⟨hw, hl⟩ | ⟨-, r, hl⟩ <;> rw [hl] at h <;> cases h
  exact ⟨hw, rfl⟩

/-- Settles O12: a launch is refused exactly when the image is not well formed. -/
theorem launchRefusesOtherImages : Obligations.LaunchRefusesOtherImages := by
  intro cfg img inp
  rw [launch_refused_iff, ProgramImage.wellFormed_iff, maxUnifiedWords]
  omega

/-- What the launch checks do to the reset state: record the scan's `DecodeError`, end the empty program, or nothing. -/
theorem State.launchChecks_cases (s : State) :
    (∃ f, s.launchChecks = s.takeFault f) ∨ s.launchChecks = s.haltNormal ∨ s.launchChecks = s := by
  unfold State.launchChecks
  split
  · exact .inl ⟨_, rfl⟩
  · split
    · exact .inr (.inl rfl)
    · exact .inr (.inr rfl)

end Machine
end Sys2Proof
end

section
/-! PROOF. Obligation O57: `TEXT_RADIX` affects trace text only (spec `00_scope.md` rule R10). Every operation of the machine
commutes with a change of that parameter, so every instruction, the step and the launch do. -/

namespace Sys2Proof.Machine

/-! ## Operations under another radix -/

section
variable (s : State) (x : TextRadix)

@[simp] theorem State.withTextRadix_advance : (s.withTextRadix x).advance = s.advance.withTextRadix x := rfl
@[simp] theorem State.withTextRadix_haltNormal : (s.withTextRadix x).haltNormal = s.haltNormal.withTextRadix x := rfl
@[simp] theorem State.withTextRadix_takeFault (f : RunFault) :
    (s.withTextRadix x).takeFault f = (s.takeFault f).withTextRadix x := rfl
@[simp] theorem State.withTextRadix_pushOut (n : Int) :
    (s.withTextRadix x).pushOut n = (s.pushOut n).withTextRadix x := rfl
@[simp] theorem State.withTextRadix_dropInput : (s.withTextRadix x).dropInput = s.dropInput.withTextRadix x := rfl
@[simp] theorem State.withTextRadix_setMem (m : Memory) :
    (s.withTextRadix x).setMem m = (s.setMem m).withTextRadix x := rfl
@[simp] theorem State.withTextRadix_emit (e : Event) : (s.withTextRadix x).emit e = (s.emit e).withTextRadix x := rfl
@[simp] theorem State.withTextRadix_writeReg (r : RegIndex) (v : Word) :
    (s.withTextRadix x).writeReg r v = (s.writeReg r v).withTextRadix x := by
  unfold State.writeReg; split <;> rfl
@[simp] theorem State.withTextRadix_writeField (f : RegField) (v : Word) :
    (s.withTextRadix x).writeField f v = (s.writeField f v).withTextRadix x := by
  simp [State.writeField]
@[simp] theorem State.withTextRadix_writeHiLo (hi lo : Word) :
    (s.withTextRadix x).writeHiLo hi lo = (s.writeHiLo hi lo).withTextRadix x := by
  simp [State.writeHiLo]

@[simp] theorem State.withTextRadix_readField (f : RegField) : (s.withTextRadix x).readField f = s.readField f := rfl
@[simp] theorem State.withTextRadix_fetch : (s.withTextRadix x).fetch = s.fetch := rfl
@[simp] theorem State.withTextRadix_branchTarget (imm : ImmField) :
    (s.withTextRadix x).branchTarget imm = s.branchTarget imm := rfl
@[simp] theorem State.withTextRadix_effectiveAddress (rs : RegField) (imm : ImmField) :
    (s.withTextRadix x).effectiveAddress rs imm = s.effectiveAddress rs imm := rfl
@[simp] theorem State.withTextRadix_memRead (a : Int) : (s.withTextRadix x).memRead a = s.memRead a := rfl
@[simp] theorem State.withTextRadix_inDataRegion (a : Int) :
    (s.withTextRadix x).inDataRegion a = s.inDataRegion a := rfl
@[simp] theorem State.withTextRadix_targetFault (t : Int) : (s.withTextRadix x).targetFault t = s.targetFault t := rfl
@[simp] theorem State.withTextRadix_divFaults (a b : Int) : (s.withTextRadix x).divFaults a b = s.divFaults a b := rfl
@[simp] theorem State.withTextRadix_service : (s.withTextRadix x).service = s.service := rfl
@[simp] theorem heldForInput_withTextRadix (i : Instr) :
    heldForInput i (s.withTextRadix x) = heldForInput i s := rfl
@[simp] theorem State.withTextRadix_launchScan : (s.withTextRadix x).launchScan = s.launchScan := rfl
@[simp] theorem eventOf_withTextRadix (pc : Nat) (w : Word) :
    eventOf pc w (s.withTextRadix x) = eventOf pc w s := rfl

@[simp] theorem State.withTextRadix_transfer (t : Int) :
    (s.withTextRadix x).transfer t = (s.transfer t).withTextRadix x := by
  simp only [State.transfer, State.withTextRadix_targetFault]
  split <;> rfl

@[simp] theorem State.withTextRadix_haltCheck : (s.withTextRadix x).haltCheck = s.haltCheck.withTextRadix x := by
  by_cases h : s.runState = .running ∧ s.nI ≤ s.pc <;> simp [State.haltCheck, h]

@[simp] theorem finishStep_withTextRadix (pc : Nat) (w : Word) :
    finishStep pc w (s.withTextRadix x) = (finishStep pc w s).withTextRadix x := by
  simp [finishStep]

@[simp] theorem State.withTextRadix_launchChecks :
    (s.withTextRadix x).launchChecks = s.launchChecks.withTextRadix x := by
  simp only [State.launchChecks, State.withTextRadix_launchScan]
  split
  · rfl
  · by_cases h : s.nI ≤ s.pc <;> simp [h]

@[simp] theorem readInteger_withTextRadix : readInteger (s.withTextRadix x) = (readInteger s).withTextRadix x := by
  simp only [readInteger, State.withTextRadix_inp]
  split <;> simp

end

/-! ## Instructions, the step and the launch under another radix -/

/-- The outcome with its next state, if there is one, changed by `f`. -/
def mapNext (f : State → State) : Host.Outcome State Fault Refusal → Host.Outcome State Fault Refusal
  | .next t => .next (f t)
  | .fault e => .fault e
  | .refused e => .refused e

section
variable (f : State → State)

@[simp] theorem mapNext_next (t : State) : mapNext f (.next t) = .next (f t) := rfl
@[simp] theorem mapNext_fault (e : Fault) : mapNext f (.fault e) = .fault e := rfl
@[simp] theorem mapNext_refused (e : Refusal) : mapNext f (.refused e) = .refused e := rfl

theorem mapNext_ite (c : Prop) [Decidable c] (a b : Host.Outcome State Fault Refusal) :
    mapNext f (if c then a else b) = if c then mapNext f a else mapNext f b := apply_ite _ _ _ _

end

/-- An instruction does the same under another radix. -/
theorem exec_withTextRadix (i : Instr) (s : State) (x : TextRadix) :
    exec i (s.withTextRadix x) = mapNext (·.withTextRadix x) (exec i s) := by
  cases i with
  | addu | and | or | slt | subu => simp [exec, execAddu, execAnd, execOr, execSlt, execSubu, aluR]
  | addiu | mult | mfhi | mflo | j => simp [exec, execAddiu, execMult, execMfhi, execMflo, execJ]
  | div => simp [exec, execDiv, mapNext_ite]
  | syscall =>
    simp only [exec, execSyscall, mapNext_ite, State.withTextRadix_service, readInteger_withTextRadix, mapNext_next]
    rfl
  | beq | bne => simp [exec, execBeq, execBne, mapNext_ite]
  | lw rt rs imm =>
    simp only [exec, execLw, State.withTextRadix_memRead, State.withTextRadix_effectiveAddress]
    split <;> simp
  | sw rt rs imm =>
    cases hd : s.inDataRegion (s.effectiveAddress rs imm) <;> simp [exec, execSw, State.memWrite, hd]

theorem runInstr_withTextRadix (i : Instr) (w : Word) (s : State) (x : TextRadix) :
    runInstr i w (s.withTextRadix x) = mapNext (·.withTextRadix x) (runInstr i w s) := by
  obtain ⟨t, ht⟩ := exec_next i s
  simp [runInstr, exec_withTextRadix, ht, mapNext_ite]

theorem runWord_withTextRadix (w : Word) (s : State) (x : TextRadix) :
    runWord w (s.withTextRadix x) = mapNext (·.withTextRadix x) (runWord w s) := by
  unfold runWord
  split
  · exact runInstr_withTextRadix _ w s x
  · rfl

/-- A step does the same under another radix. -/
theorem step_withTextRadix (s : State) (x : TextRadix) :
    step (s.withTextRadix x) = mapNext (·.withTextRadix x) (step s) := by
  simp only [step, State.withTextRadix_runState]
  split
  · simp [runCycle, runWord_withTextRadix, mapNext_ite]
  · rfl
  · rfl

/-- A launch does the same under another radix. -/
theorem launch_withTextRadix (cfg : Config) (img : ProgramImage) (inp : List Word) (x : TextRadix) :
    launch { cfg with textRadix := x } img inp = mapNext (·.withTextRadix x) (launch cfg img inp) := by
  have hreset : resetState { cfg with textRadix := x } img inp = (resetState cfg img inp).withTextRadix x := rfl
  simp [launch, hreset, mapNext_ite]

/-- Settles O57: the step and the launch commute with a change of `TEXT_RADIX`. -/
theorem textRadixAffectsTextOnly : Obligations.TextRadixAffectsTextOnly := by
  refine ⟨fun cfg img inp s x h => ?_, fun s t x h => ?_, fun s f x h => ?_⟩
  · rw [launch_withTextRadix, h, mapNext_next]
  · rw [step_withTextRadix, h, mapNext_next]
  · rw [step_withTextRadix, h, mapNext_fault]

end Sys2Proof.Machine
end

section
/-! PROOF. What instructions, steps and runs keep of the program, of register 0 and of the trace's record. -/

namespace Sys2Proof.Machine

/-! ## Register 0 (R17) -/

@[simp] theorem State.writeReg_readReg_zero (s : State) (r : RegIndex) (v : Word) :
    (s.writeReg r v).readReg 0 = s.readReg 0 := by
  rw [State.readReg_writeReg, if_neg fun h => h.2 h.1.symm]

@[simp] theorem State.writeField_readReg_zero (s : State) (f : RegField) (v : Word) :
    (s.writeField f v).readReg 0 = s.readReg 0 :=
  s.writeReg_readReg_zero (regOf f) v

@[simp] theorem State.writeHiLo_readReg_zero (s : State) (hi lo : Word) :
    (s.writeHiLo hi lo).readReg 0 = s.readReg 0 := by
  simp [State.writeHiLo]

@[simp] theorem State.transfer_regs (s : State) (t : Int) : (s.transfer t).regs = s.regs := by
  rcases s.transfer_cases t with ⟨-, -, e⟩ | ⟨-, -, e⟩ | ⟨-, e⟩ <;> simp [e]

/-- No instruction changes register 0. -/
theorem exec_readReg_zero {i : Instr} {s t : State} (h : exec i s = .next t) : t.readReg 0 = s.readReg 0 := by
  cases i with
  | div rs rt => simp only [exec, execDiv] at h; split at h <;> cases h <;> simp
  | syscall =>
    simp only [exec, execSyscall] at h
    split at h
    · cases h; simp [printInteger]
    · split at h
      · cases h; unfold readInteger; split <;> simp
      · split at h <;> cases h <;> simp [exitRun]
  | beq rs rt imm => simp only [exec, execBeq] at h; split at h <;> cases h <;> simp [State.readReg]
  | bne rs rt imm => simp only [exec, execBne] at h; split at h <;> cases h <;> simp [State.readReg]
  | j a => cases h; simp [State.readReg]
  | lw rt rs imm => simp only [exec, execLw] at h; split at h <;> cases h <;> simp
  | sw rt rs imm =>
    simp only [exec, execSw] at h
    rcases s.memWrite_cases (s.effectiveAddress rs imm) (s.readField rt) with ⟨-, e⟩ | ⟨-, e⟩ <;>
      (rw [e] at h; cases h; simp)
  | _ => cases h; simp

/-- No step changes register 0. -/
theorem step_readReg_zero {s t : State} (h : step s = .next t) : t.readReg 0 = s.readReg 0 := by
  obtain ⟨-, ⟨-, rfl⟩ | ⟨-, -, rfl⟩ | ⟨i, -, -, -, rfl⟩ | ⟨i, u, -, -, -, hu, rfl⟩⟩ := step_cases h
  · rfl
  · rfl
  · rfl
  · rw [finishStep_readReg, exec_readReg_zero hu]

/-! ## The program: parameters, counts and instruction words (R26, R45) -/

/-- The two states run one program: the parameters, the counts and every instruction word agree. -/
structure SameProgram (s t : State) : Prop where
  config : t.config = s.config
  nI : t.nI = s.nI
  nW : t.nW = s.nW
  imem : ∀ k, k < s.nI → t.imem k = s.imem k

theorem SameProgram.refl (s : State) : SameProgram s s := ⟨rfl, rfl, rfl, fun _ _ => rfl⟩

theorem SameProgram.trans {s t u : State} (h : SameProgram s t) (h' : SameProgram t u) : SameProgram s u :=
  ⟨h'.config.trans h.config, h'.nI.trans h.nI, h'.nW.trans h.nW,
    fun k hk => (h'.imem k (h.nI ▸ hk)).trans (h.imem k hk)⟩

theorem State.haltNormal_sameProgram (s : State) : SameProgram s s.haltNormal := ⟨rfl, rfl, rfl, fun _ _ => rfl⟩

theorem State.takeFault_sameProgram (s : State) (f : RunFault) : SameProgram s (s.takeFault f) :=
  ⟨rfl, rfl, rfl, fun _ _ => rfl⟩

theorem State.emit_sameProgram (s : State) (e : Event) : SameProgram s (s.emit e) := ⟨rfl, rfl, rfl, fun _ _ => rfl⟩

theorem State.supplyInput_sameProgram (s : State) (ns : List Word) : SameProgram s (s.supplyInput ns) :=
  ⟨rfl, rfl, rfl, fun _ _ => rfl⟩

/-- A store's address is at or past `nI`, so it names no instruction word. -/
theorem exec_sameProgram {i : Instr} {s t : State} (h : exec i s = .next t) : SameProgram s t := by
  obtain ⟨hc, hnI, hnW, -⟩ := exec_keeps_constants h
  refine ⟨hc, hnI, hnW, fun k hk => ?_⟩
  unfold State.imem
  rcases exec_mem h with hm | ⟨rt, rs, imm, -, hd, hm⟩
  · rw [hm]
  · have hlow := (State.inDataRegion_iff.mp hd).1
    rw [hm, Memory.read_write_other _ (by omega)]

theorem finishStep_sameProgram (pc : Nat) (w : Word) (s : State) : SameProgram s (finishStep pc w s) :=
  ⟨by simp, by simp, by simp, fun k _ => by simp [State.imem]⟩

theorem step_sameProgram {s t : State} (h : step s = .next t) : SameProgram s t := by
  obtain ⟨-, ⟨-, rfl⟩ | ⟨-, -, rfl⟩ | ⟨i, -, -, -, rfl⟩ | ⟨i, u, -, -, -, hu, rfl⟩⟩ := step_cases h
  · exact s.haltNormal_sameProgram
  · exact s.takeFault_sameProgram _
  · exact .refl t
  · exact (exec_sameProgram hu).trans (finishStep_sameProgram _ _ u)

/-- Whatever a run reaches runs the program it started with. -/
theorem Reachable.sameProgram {s t : State} (h : Reachable s t) : SameProgram s t := by
  induction h with
  | start => exact .refl s
  | stepped t u _ hu ih => exact ih.trans (step_sameProgram hu)
  | supplied t ns _ ih => exact ih.trans (t.supplyInput_sameProgram ns)

/-! ## The trace (R102) -/

/-- A well-formed event of a state is one of any state that runs the same program. -/
theorem Event.wellFormed.of_sameProgram {s t : State} {e : Event} (h : e.wellFormed s) (hp : SameProgram s t) :
    e.wellFormed t where
  inProgram := hp.nI ▸ h.inProgram
  wordOfProgram := h.wordOfProgram.trans (hp.imem e.pc h.inProgram).symm
  isInstruction := h.isInstruction
  dataLength p hsnap := (h.dataLength p hsnap).trans hp.nW.symm
  zeroShown := h.zeroShown

theorem eventOf_snapshot {pc : Nat} {w : Word} {t : State} {p : Snapshot} (h : (eventOf pc w t).snapshot = some p) :
    p = t.snapshot := by
  unfold eventOf at h
  split at h <;> cases h
  rfl

/-- The event of an instruction word of the program is well formed. -/
theorem eventOf_wellFormed {pc : Nat} {w : Word} {t : State} (hpc : pc < t.nI) (hw : w = t.imem pc)
    (hi : supported w = true) (h0 : t.readReg 0 = 0) : (eventOf pc w t).wellFormed t where
  inProgram := hpc
  wordOfProgram := hw
  isInstruction := hi
  dataLength p hsnap := by simp [eventOf_snapshot hsnap, State.snapshot, State.dataWords]
  zeroShown p hsnap := by rw [eventOf_snapshot hsnap]; exact h0

/-- The part of the machine's invariant `State.Inv` that its trace rests on. -/
structure State.TraceInv (s : State) : Prop where
  zeroRegister : s.readReg 0 = 0
  traceOfProgram : ∀ e ∈ s.trace, e.wellFormed s

/-- A state that shows the same trace of the same program keeps the invariant of the trace. -/
theorem State.TraceInv.of_sameTrace {s t : State} (h : s.TraceInv) (hp : SameProgram s t) (ht : t.trace = s.trace)
    (h0 : t.readReg 0 = s.readReg 0) : t.TraceInv where
  zeroRegister := h0.trans h.zeroRegister
  traceOfProgram e he := (h.traceOfProgram e (ht ▸ he)).of_sameProgram hp

/-- The end of a step keeps the invariant of the trace when the word it records is one of the program. -/
theorem finishStep_traceInv {pc : Nat} {w : Word} {t : State} (h : t.TraceInv) (hpc : pc < t.nI) (hw : w = t.imem pc)
    (hi : supported w = true) : (finishStep pc w t).TraceInv where
  zeroRegister := (finishStep_readReg pc w t 0).trans h.zeroRegister
  traceOfProgram e he := by
    rw [finishStep_trace, List.mem_append, List.mem_singleton] at he
    rcases he with he | rfl
    · exact (h.traceOfProgram e he).of_sameProgram (finishStep_sameProgram pc w t)
    · have h0 : t.haltCheck.readReg 0 = 0 := by simpa [State.readReg] using h.zeroRegister
      have hew : (eventOf pc w t.haltCheck).wellFormed t.haltCheck :=
        eventOf_wellFormed (by simpa using hpc) (by simpa [State.imem] using hw) hi h0
      exact hew.of_sameProgram (t.haltCheck.emit_sameProgram _)

theorem supported_of_decode {w : Word} {i : Instr} (h : decode w = .ok i) : supported w = true := by
  simp [supported, h, Except.isOk, Except.toBool]

theorem decode_of_supported {w : Word} (h : supported w = true) : ∃ i, decode w = .ok i := by
  by_contra hne
  rw [supported_eq_false.mpr fun i hi => hne ⟨i, hi⟩] at h
  cases h

theorem step_traceInv {s t : State} (h : step s = .next t) (hs : s.TraceInv) : t.TraceInv := by
  obtain ⟨-, ⟨-, rfl⟩ | ⟨-, -, rfl⟩ | ⟨i, -, -, -, rfl⟩ | ⟨i, u, hpc, hd, -, hu, rfl⟩⟩ := step_cases h
  · exact hs.of_sameTrace s.haltNormal_sameProgram rfl rfl
  · exact hs.of_sameTrace (s.takeFault_sameProgram _) rfl rfl
  · exact hs
  · have hp := exec_sameProgram hu
    obtain ⟨-, -, -, htrace⟩ := exec_keeps_constants hu
    have hui : u.TraceInv := hs.of_sameTrace hp htrace (exec_readReg_zero hu)
    exact finishStep_traceInv hui (hp.nI ▸ hpc) (hp.imem _ hpc).symm (supported_of_decode hd)

theorem Reachable.traceInv {s t : State} (h : Reachable s t) (hs : s.TraceInv) : t.TraceInv := by
  induction h with
  | start => exact hs
  | stepped t u _ hu ih => exact step_traceInv hu ih
  | supplied t ns _ ih => exact ih.of_sameTrace (t.supplyInput_sameProgram ns) rfl rfl

/-! ## The launch state -/

theorem State.launchChecks_sameProgram (s : State) : SameProgram s s.launchChecks := by
  obtain ⟨f, e⟩ | e | e := s.launchChecks_cases <;> rw [e]
  · exact s.takeFault_sameProgram f
  · exact s.haltNormal_sameProgram
  · exact .refl s

theorem resetState_traceInv (cfg : Config) (img : ProgramImage) (inp : List Word) :
    (resetState cfg img inp).TraceInv where
  zeroRegister := by simp [State.readReg, resetState, regGP]
  traceOfProgram e he := by cases he

theorem State.launchChecks_traceInv {s : State} (hs : s.TraceInv) : s.launchChecks.TraceInv := by
  obtain ⟨f, e⟩ | e | e := s.launchChecks_cases <;> rw [e]
  · exact hs.of_sameTrace (s.takeFault_sameProgram f) rfl rfl
  · exact hs.of_sameTrace s.haltNormal_sameProgram rfl rfl
  · exact hs

/-- A launch holds the image's counts and its own parameters, and its trace is well formed (no event yet). -/
theorem launch_program {cfg : Config} {img : ProgramImage} {inp : List Word} {s : State}
    (h : launch cfg img inp = .next s) :
    s.config = cfg ∧ s.nI = img.numInstructions ∧ s.nW = img.numWords ∧ s.TraceInv := by
  obtain ⟨-, rfl⟩ := launch_next h
  obtain ⟨hc, hnI, hnW, -⟩ := (resetState cfg img inp).launchChecks_sameProgram
  exact ⟨hc, hnI, hnW, State.launchChecks_traceInv (resetState_traceInv cfg img inp)⟩

end Sys2Proof.Machine
end

section
/-! PROOF. Obligation O56: how a launched run shows its trace (spec `00_scope.md` rule R10, `30_encoding.md` rule R61,
`47_host_interface.md` rule R102). -/

namespace Sys2Proof.Machine

theorem disassemble_of_decode {w : Word} {i : Instr} (h : decode w = .ok i) (x : TextRadix) :
    disassemble x w = some (showInstr x i) := by
  simp [disassemble, h]

/-- There are as many labels as values in a snapshot: 34 register names and one address per data word. -/
theorem snapshotLabels_length_eq (nI : Nat) (p : Snapshot) :
    (snapshotLabels nI p.data.length).length = (p.regs.toList ++ p.data).length := by
  rw [snapshotLabels_length, List.length_append, Vector.length_toList]

theorem Snapshot.labelled_fst (nI : Nat) (p : Snapshot) :
    (p.labelled nI).map Prod.fst = snapshotLabels nI p.data.length :=
  List.map_fst_zip (snapshotLabels_length_eq nI p).le

theorem Snapshot.labelled_snd (nI : Nat) (p : Snapshot) : (p.labelled nI).map Prod.snd = p.regs.toList ++ p.data :=
  List.map_snd_zip (snapshotLabels_length_eq nI p).ge

/-- Settles O56: every event of a launched run is well formed, and the run keeps the launch's parameters and counts. -/
theorem shownTraceFollowsTextRadix : Obligations.ShownTraceFollowsTextRadix := by
  intro cfg img inp s t hl hr
  obtain ⟨hcfg, hnI, hnW, hs⟩ := launch_program hl
  have hp := hr.sameProgram
  refine ⟨List.length_map _, fun e he => ?_⟩
  have hwf : e.wellFormed t := (hr.traceInv hs).traceOfProgram e he
  obtain ⟨i, hi⟩ := decode_of_supported hwf.isInstruction
  refine ⟨i, hwf.wordOfProgram ▸ hi, rfl, ?_, fun h => ?_, fun p h => ?_⟩
  · rw [State.showEvent_text, hp.config, hcfg, disassemble_of_decode hi]
  · rw [State.showEvent_snapshot, h, Option.map_none]
  · refine ⟨p.labelled t.nI, by rw [State.showEvent_snapshot, h, Option.map_some], ?_, p.labelled_snd t.nI⟩
    rw [p.labelled_fst, hwf.dataLength p h, hp.nI, hp.nW, hnI, hnW]

end Sys2Proof.Machine
end

section
/-! PROOF. What one instruction can do (spec `40_step_dispatch.md` rule R68), said once for all 16: `exec_effect`. -/

namespace Sys2Proof.Machine

/-! ## Loads, stores and transfers -/

theorem State.inDataRegion_eq_false_iff {s : State} {a : Int} :
    s.inDataRegion a = false ↔ a < (s.nI : Int) ∨ (s.nI : Int) + s.nW ≤ a := by
  rw [← Bool.not_eq_true, State.inDataRegion_iff]
  omega

theorem exec_lw_cases (rt rs : RegField) (imm : ImmField) (s : State) :
    (s.inDataRegion (s.effectiveAddress rs imm) = true ∧ exec (.lw rt rs imm) s =
      .next ((s.writeField rt (s.mem.read (s.effectiveAddress rs imm).toNat)).advance)) ∨
    (s.inDataRegion (s.effectiveAddress rs imm) = false ∧ exec (.lw rt rs imm) s =
      .next (s.takeFault (.memoryFault (s.effectiveAddress rs imm)))) := by
  rcases s.memRead_cases (s.effectiveAddress rs imm) with ⟨hd, e⟩ | ⟨hd, e⟩ <;> simp [exec, execLw, hd, e]

theorem exec_sw_cases (rt rs : RegField) (imm : ImmField) (s : State) :
    (s.inDataRegion (s.effectiveAddress rs imm) = true ∧ exec (.sw rt rs imm) s =
      .next ((s.setMem (s.mem.write (s.effectiveAddress rs imm).toNat (s.readField rt))).advance)) ∨
    (s.inDataRegion (s.effectiveAddress rs imm) = false ∧ exec (.sw rt rs imm) s =
      .next (s.takeFault (.memoryFault (s.effectiveAddress rs imm)))) := by
  rcases s.memWrite_cases (s.effectiveAddress rs imm) (s.readField rt) with ⟨hd, e⟩ | ⟨hd, e⟩ <;>
    simp [exec, execSw, hd, e]

/-! ## Every instruction -/

/-- The effects an instruction `i` can have from `s`, by what they do to the registers, the pc and the run state. -/
inductive ExecEffect (i : Instr) (s : State) : State → Prop where
  | faults (f : RunFault) (hf : f.truthful s) : ExecEffect i s (s.takeFault f)
  | transfers (n : Nat) (hn : n < s.nI) : ExecEffect i s (s.setPc n)
  /-- Service 5 without input (R85). -/
  | held : ExecEffect i s s
  | advances (t : State) (hpc : t.pc = s.pc + 1) (hrun : t.runState = s.runState ∨ t.runState = .haltedNormal)
      (hframe : ∀ r, r ∉ writeSet i s → t.readReg r = s.readReg r) : ExecEffect i s t

theorem ExecEffect.of_advance {i : Instr} {s : State} : ExecEffect i s s.advance :=
  .advances _ rfl (.inl rfl) fun _ _ => rfl

theorem ExecEffect.of_writeField {i : Instr} {s : State} {f : RegField} (h : regOf f ∈ writeSet i s) (v : Word) :
    ExecEffect i s (s.writeField f v).advance := by
  refine .advances _ (by simp) (.inl (by simp)) fun r hr => ?_
  have hne : r ≠ regOf f := fun e => hr (e ▸ h)
  rw [State.advance_readReg, State.readReg_writeField, if_neg fun c => hne c.1]

theorem ExecEffect.of_writeHiLo {i : Instr} {s : State} (h : writeSet i s = [regLO, regHI]) (hi lo : Word) :
    ExecEffect i s (s.writeHiLo hi lo).advance := by
  refine .advances _ (by simp) (.inl (by simp)) fun r hr => ?_
  obtain ⟨hlo, hhi⟩ : r ≠ regLO ∧ r ≠ regHI := by simpa [h] using hr
  rw [State.advance_readReg, State.readReg_writeHiLo, if_neg hhi, if_neg hlo]

theorem ExecEffect.of_transfer (i : Instr) (s : State) (a : Int) : ExecEffect i s (s.transfer a) := by
  rcases s.transfer_cases a with ⟨h1, h2, e⟩ | ⟨h1, h2, e⟩ | ⟨h1, e⟩ <;> rw [e]
  · exact .transfers _ (by omega)
  · exact .faults _ ⟨h1, h2⟩
  · exact .faults _ h1

theorem ExecEffect.of_readInteger {s : State} (h : s.service = 5) : ExecEffect .syscall s (readInteger s) := by
  unfold readInteger
  split
  · exact .held
  · next n ns hinp =>
    refine .advances _ (by simp) (.inl (by simp)) fun r hr => ?_
    have hne : r ≠ regV0 := by
      have h5 : S (s.readReg regV0) = 5 := h
      simpa [writeSet, h5] using hr
    rw [State.advance_readReg, State.readReg_writeReg, if_neg fun c => hne c.1, State.dropInput_readReg]

/-- Every effect an instruction can have. -/
theorem exec_effect {i : Instr} {s t : State} (h : exec i s = .next t) : ExecEffect i s t := by
  cases i with
  | addu | and | or | slt | subu | addiu | mfhi | mflo => cases h; exact .of_writeField (by simp [writeSet]) _
  | mult => cases h; exact .of_writeHiLo rfl _ _
  | div rs rt =>
    simp only [exec, execDiv] at h
    split at h <;> cases h
    · exact .faults _ trivial
    · exact .of_writeHiLo rfl _ _
  | syscall =>
    simp only [exec, execSyscall] at h
    split at h
    · cases h; exact .advances _ rfl (.inl rfl) fun _ _ => rfl
    · split at h
      · next h5 => cases h; exact .of_readInteger h5
      · split at h <;> cases h
        · exact .advances _ rfl (.inr rfl) fun _ _ => rfl
        · exact .of_advance
  | beq rs rt imm =>
    simp only [exec, execBeq] at h
    split at h <;> cases h
    · exact .of_transfer _ s _
    · exact .of_advance
  | bne rs rt imm =>
    simp only [exec, execBne] at h
    split at h <;> cases h
    · exact .of_advance
    · exact .of_transfer _ s _
  | j a => cases h; exact .of_transfer _ s _
  | lw rt rs imm =>
    rcases exec_lw_cases rt rs imm s with ⟨-, e⟩ | ⟨hd, e⟩ <;> rw [e] at h <;> cases h
    · exact .of_writeField (by simp [writeSet]) _
    · exact .faults _ (State.inDataRegion_eq_false_iff.mp hd)
  | sw rt rs imm =>
    rcases exec_sw_cases rt rs imm s with ⟨-, e⟩ | ⟨hd, e⟩ <;> rw [e] at h <;> cases h
    · exact .advances _ rfl (.inl rfl) fun _ _ => rfl
    · exact .faults _ (State.inDataRegion_eq_false_iff.mp hd)

/-- The frame of registers: what R19's write column does not list stays. -/
theorem exec_frame {i : Instr} {s t : State} (h : exec i s = .next t) {r : RegIndex} (hr : r ∉ writeSet i s) :
    t.readReg r = s.readReg r := by
  cases exec_effect h with
  | faults | transfers | held => rfl
  | advances _ _ _ hframe => exact hframe r hr

/-- An instruction that ends a running machine in a fault did nothing but take it, and the record is truthful. -/
theorem exec_fault {i : Instr} {s t : State} {f : RunFault} (h : exec i s = .next t) (hs : s.runState = .running)
    (ht : t.runState = .haltedFault f) : f.truthful s ∧ t = s.takeFault f := by
  cases exec_effect h with
  | faults g hg => cases ht; exact ⟨hg, rfl⟩
  | transfers => simp [hs] at ht
  | held => simp [hs] at ht
  | advances _ _ hrun => simp [hs, ht] at hrun

/-- An instruction of the program leaves the pc in `0 .. nI` (R21). -/
theorem exec_pc_le {i : Instr} {s t : State} (h : exec i s = .next t) (hpc : s.pc < s.nI) : t.pc ≤ s.nI := by
  cases exec_effect h with
  | faults | held => exact hpc.le
  | transfers n hn => exact hn.le
  | advances _ hnext => omega

/-- The end of a step enters no fault. -/
theorem runState_of_finishStep_fault {pc : Nat} {w : Word} {s : State} {f : RunFault}
    (h : (finishStep pc w s).runState = .haltedFault f) : s.runState = .haltedFault f := by
  rw [finishStep_runState, State.haltCheck_runState] at h
  split at h
  · cases h
  · exact h

end Sys2Proof.Machine
end

section
/-! PROOF. Obligation O15: every step keeps the invariant of the machine (spec `10_state.md` rules R17, R21). -/

namespace Sys2Proof.Machine

/-- A record truthful in a state is truthful in any state that runs the same program. -/
theorem RunFault.truthful.of_sameProgram {s t : State} {f : RunFault} (h : f.truthful s) (hp : SameProgram s t) :
    f.truthful t := by
  match f with
  | .decodeError w i =>
    obtain ⟨hi, hw, hno⟩ := h
    exact ⟨hp.nI ▸ hi, hw.trans (hp.imem i hi).symm, hno⟩
  | .arithmeticFault => trivial
  | .controlFlowFault _ .inData | .controlFlowFault _ .illegal | .memoryFault _ =>
    simpa only [RunFault.truthful, hp.nI, hp.nW] using h

theorem State.Inv.traceInv {s : State} (h : s.Inv) : s.TraceInv := ⟨h.zeroRegister, h.traceOfProgram⟩

/-- A run state with a truthful record, or with none, may replace another. -/
theorem State.Inv.withRunState {s : State} (h : s.Inv) {r : RunState} (hr : ∀ f, r = .haltedFault f → f.truthful s) :
    ({ s with runState := r } : State).Inv :=
  have hp : SameProgram s { s with runState := r } := ⟨rfl, rfl, rfl, fun _ _ => rfl⟩
  { h with
    traceOfProgram := fun e he => (h.traceOfProgram e he).of_sameProgram hp
    faultTruthful := fun f hf => (hr f hf).of_sameProgram hp }

theorem State.Inv.haltNormal {s : State} (h : s.Inv) : s.haltNormal.Inv := h.withRunState fun _ e => by cases e

theorem State.Inv.takeFault {s : State} (h : s.Inv) {f : RunFault} (hf : f.truthful s) : (s.takeFault f).Inv :=
  h.withRunState fun _ e => by cases e; exact hf

/-- An instruction's memory is canonical: at most one store is made (R37). -/
theorem exec_mem_wf {i : Instr} {s t : State} (h : exec i s = .next t) (hm : s.mem.wf) : t.mem.wf := by
  obtain e | ⟨_, _, _, -, -, e⟩ := exec_mem h <;> rw [e]
  · exact hm
  · exact Memory.write_wf hm _ _

/-- A store's address is inside the address space (R33), so no instruction lists a word outside it. -/
theorem exec_mem_inSpace {i : Instr} {s t : State} (h : exec i s = .next t) (hm : ∀ c ∈ s.mem, c.1 < s.nI + s.nW) :
    ∀ c ∈ t.mem, c.1 < s.nI + s.nW := by
  obtain e | ⟨_, rs, imm, -, hd, e⟩ := exec_mem h <;> rw [e]
  · exact hm
  · intro c hc
    rcases Memory.mem_write hc with hc | ⟨rfl, -⟩
    · exact hm c hc
    · obtain ⟨hlow, hhigh⟩ := State.inDataRegion_iff.mp hd
      show (s.effectiveAddress rs imm).toNat < _
      omega

theorem exec_out_signed {i : Instr} {s t : State} (h : exec i s = .next t)
    (ho : ∀ n ∈ s.out, -(2 ^ 31) ≤ n ∧ n < 2 ^ 31) : ∀ n ∈ t.out, -(2 ^ 31) ≤ n ∧ n < 2 ^ 31 := by
  obtain ⟨e | ⟨e, -⟩, -⟩ := exec_channels h <;> rw [e]
  · exact ho
  · intro n hn
    rcases List.mem_append.mp hn with hn | hn
    · exact ho n hn
    · exact List.mem_singleton.mp hn ▸ S_range (s.readReg 4)

/-- An instruction of the program keeps the invariant of a running machine. -/
theorem exec_inv {i : Instr} {s t : State} (h : exec i s = .next t) (hs : s.Inv) (hrun : s.runState = .running)
    (hpc : s.pc < s.nI) : t.Inv := by
  have hp := exec_sameProgram h
  obtain ⟨-, -, -, htrace⟩ := exec_keeps_constants h
  obtain ⟨hzero, hevents⟩ := hs.traceInv.of_sameTrace hp htrace (exec_readReg_zero h)
  exact {
    bound := by rw [hp.nI, hp.nW]; exact hs.bound
    memCanonical := exec_mem_wf h hs.memCanonical
    memInSpace := by rw [hp.nI, hp.nW]; exact exec_mem_inSpace h hs.memInSpace
    zeroRegister := hzero
    pcInRange := hp.nI ▸ exec_pc_le h hpc
    outSigned := exec_out_signed h hs.outSigned
    traceOfProgram := hevents
    faultTruthful := fun f hf => (exec_fault h hrun hf).1.of_sameProgram hp }

/-- The end of a step keeps the invariant when the word it records is an instruction of the program. -/
theorem finishStep_inv {pc : Nat} {w : Word} {t : State} (h : t.Inv) (hpc : pc < t.nI) (hw : w = t.imem pc)
    (hi : supported w = true) : (finishStep pc w t).Inv := by
  obtain ⟨hzero, hevents⟩ := finishStep_traceInv h.traceInv hpc hw hi
  exact {
    bound := by simpa using h.bound
    memCanonical := by simpa using h.memCanonical
    memInSpace := by simpa using h.memInSpace
    zeroRegister := hzero
    pcInRange := by simpa using h.pcInRange
    outSigned := by simpa using h.outSigned
    traceOfProgram := hevents
    faultTruthful := fun f hf =>
      (h.faultTruthful f (runState_of_finishStep_fault hf)).of_sameProgram (finishStep_sameProgram pc w t) }

/-- Settles O15, by what a step can do. -/
theorem stepKeepsInvariant : Obligations.StepKeepsInvariant := by
  intro s t hs h
  obtain ⟨hrun, ⟨-, rfl⟩ | ⟨hpc, hno, rfl⟩ | ⟨i, -, -, -, rfl⟩ | ⟨i, u, hpc, hd, -, hu, rfl⟩⟩ := step_cases h
  · exact hs.haltNormal
  · exact hs.takeFault ⟨hpc, rfl, hno⟩
  · exact hs
  · have hp := exec_sameProgram hu
    exact finishStep_inv (exec_inv hu hs hrun hpc) (hp.nI ▸ hpc) (hp.imem _ hpc).symm (supported_of_decode hd)

end Sys2Proof.Machine
end

section
/-! PROOF. Obligations O10 and O14: the launch state of an image, and the invariant after a launch (spec `10_state.md` rules
R31, R32, `70_reset_and_hazards.md` rule R115). -/

namespace Sys2Proof.Machine

/-! ## The reset state of an image -/

section
variable (cfg : Config) (img : ProgramImage) (inp : List Word)

theorem resetState_readReg (r : RegIndex) :
    (resetState cfg img inp).readReg r = if r = regGP then BitVec.ofNat 32 img.numInstructions else 0 := by
  have hreset : resetState cfg img inp = ({ resetState cfg img inp with regs := Vector.replicate 34 0 } : State).poke
    regGP (BitVec.ofNat 32 img.numInstructions) := rfl
  rw [hreset, State.readReg_poke]
  simp [State.readReg]

theorem resetState_imem {i : Nat} (h : i < img.instructionWords.length) :
    (resetState cfg img inp).imem i = img.instructionWords[i] := by
  have hlen : i < (img.instructionWords ++ img.dataWords).length := by rw [List.length_append]; omega
  have hread := Memory.read_ofWords 0 (img.instructionWords ++ img.dataWords) i hlen
  rw [Nat.zero_add, List.getElem_append_left h] at hread
  exact hread

theorem resetState_dmem (hlen : img.instructionWords.length = img.numInstructions) {k : Nat}
    (h : k < img.dataWords.length) : (resetState cfg img inp).dmem k = img.dataWords[k] := by
  have hsum : img.numInstructions + k < (img.instructionWords ++ img.dataWords).length := by
    rw [List.length_append]; omega
  have hread := Memory.read_ofWords 0 (img.instructionWords ++ img.dataWords) _ hsum
  rw [Nat.zero_add, List.getElem_append_right (by omega)] at hread
  simp only [hlen, Nat.add_sub_cancel_left] at hread
  exact hread

end

/-- Settles O10: `$gp` holds `nI`, which the launch bound keeps below `2^31`, and memory holds the image's words in order. -/
theorem resetStateOfImage : Obligations.ResetStateOfImage := by
  intro cfg img inp hwf
  obtain ⟨hlen, -, hbound⟩ := img.wellFormed_iff.mp hwf
  refine ⟨?_, fun r hr => ?_, rfl, rfl, rfl, rfl, fun k hk => resetState_dmem cfg img inp hlen hk,
    fun i hi => resetState_imem cfg img inp hi, rfl, rfl, rfl⟩
  · have hfits : 2 * img.numInstructions < 2 ^ 32 := by unfold maxUnifiedWords at hbound; omega
    rw [resetState_readReg, if_pos rfl, S, BitVec.toInt_eq_toNat_cond, BitVec.toNat_ofNat,
      Nat.mod_eq_of_lt (by omega), if_pos hfits]
  · rw [resetState_readReg, if_neg hr]

/-! ## The invariant after a launch -/

theorem resetState_inv (cfg : Config) (img : ProgramImage) (inp : List Word) (h : img.wellFormed = true) :
    (resetState cfg img inp).Inv := by
  obtain ⟨hI, hW, hbound⟩ := img.wellFormed_iff.mp h
  obtain ⟨hzero, hevents⟩ := resetState_traceInv cfg img inp
  exact {
    bound := hbound
    memCanonical := Memory.ofWords_wf _ _
    memInSpace := fun c hc => by
      obtain ⟨-, hlt, -⟩ := Memory.mem_ofWords hc
      rw [List.length_append, hI, hW, Nat.zero_add] at hlt
      exact hlt
    zeroRegister := hzero
    pcInRange := Nat.zero_le _
    outSigned := fun n hn => by cases hn
    traceOfProgram := hevents
    faultTruthful := fun f hf => by cases hf }

/-- What the launch scan reports is the index of an illegal word of the program. -/
theorem State.launchScan_some {s : State} {i : Nat} (h : s.launchScan = some i) :
    i < s.nI ∧ supported (s.imem i) = false := by
  unfold State.launchScan State.firstIllegalR at h
  split at h
  · have hmem := List.mem_range.mp (List.mem_of_find?_eq_some h)
    have hbad := List.find?_some h
    simp only [illegalRWord, Bool.and_eq_true, Bool.not_eq_true'] at hbad
    exact ⟨hmem, hbad.2⟩
  · cases h

theorem State.Inv.launchChecks {s : State} (h : s.Inv) : s.launchChecks.Inv := by
  unfold State.launchChecks
  split
  · next i hscan =>
    obtain ⟨hi, hno⟩ := State.launchScan_some hscan
    exact h.takeFault ⟨hi, rfl, hno⟩
  · split
    · exact h.haltNormal
    · exact h

/-- Settles O14: the reset state of a well-formed image meets the invariant, and the launch checks keep it. -/
theorem launchMeetsInvariant : Obligations.LaunchMeetsInvariant := by
  intro cfg img inp t h
  obtain ⟨hwf, rfl⟩ := launch_next h
  exact (resetState_inv cfg img inp hwf).launchChecks

end Sys2Proof.Machine
end

section
/-! PROOF. Obligation O16: what a run reaches from a launch (spec `10_state.md` rules R17, R26, `20_memory.md` rule R45,
`40_step_dispatch.md` rule R65). -/

namespace Sys2Proof.Machine

/-- While running, the next fetch is of an instruction of the program (R65). -/
def State.FetchesInProgram (s : State) : Prop := s.runState = .running → s.pc < s.nI

/-- The halt check ends any run whose pc is not inside the program. -/
theorem finishStep_fetchesInProgram (pc : Nat) (w : Word) (s : State) : (finishStep pc w s).FetchesInProgram := by
  intro h
  rw [finishStep_runState, State.haltCheck_runState] at h
  rw [finishStep_pc, finishStep_nI]
  split at h
  · cases h
  · next hin => exact Nat.lt_of_not_le fun hle => hin ⟨h, hle⟩

theorem step_fetchesInProgram {s t : State} (h : step s = .next t) : t.FetchesInProgram := by
  obtain ⟨-, ⟨-, rfl⟩ | ⟨-, -, rfl⟩ | ⟨i, hpc, -, -, rfl⟩ | ⟨i, u, -, -, -, -, rfl⟩⟩ := step_cases h
  · exact fun hrun => by cases hrun
  · exact fun hrun => by cases hrun
  · exact fun _ => hpc
  · exact finishStep_fetchesInProgram _ _ u

/-- The launch checks end the empty program. -/
theorem State.launchChecks_fetchesInProgram (s : State) : s.launchChecks.FetchesInProgram := by
  unfold State.launchChecks
  split
  · exact fun hrun => by cases hrun
  · split
    · exact fun hrun => by cases hrun
    · next hpc => exact fun _ => Nat.lt_of_not_le hpc

theorem Reachable.fetchesInProgram {s t : State} (h : Reachable s t) (hs : s.FetchesInProgram) :
    t.FetchesInProgram := by
  induction h with
  | start => exact hs
  | stepped t u _ hu _ => exact step_fetchesInProgram hu
  | supplied t ns _ ih => exact ih

/-- Settles O16: a run keeps its program, register 0 and the bound on the pc, and a launch starts with the image's. -/
theorem runNeverChangesItsProgram : Obligations.RunNeverChangesItsProgram := by
  intro cfg img inp s t hl hr
  obtain ⟨-, -, -, htrace⟩ := launch_program hl
  obtain ⟨hwf, rfl⟩ := launch_next hl
  obtain ⟨hlen, -, -⟩ := img.wellFormed_iff.mp hwf
  have hp : SameProgram (resetState cfg img inp) t := (State.launchChecks_sameProgram _).trans hr.sameProgram
  refine ⟨hp.nI, hp.nW, hp.config, fun i hi => ?_, (hr.traceInv htrace).zeroRegister,
    hr.fetchesInProgram (State.launchChecks_fetchesInProgram _)⟩
  have hinside : i < (resetState cfg img inp).nI := hi.trans_eq hlen
  rw [hp.imem i hinside, resetState_imem cfg img inp hi]

end Sys2Proof.Machine
end

section
/-! PROOF. Obligations O19, O23, O27, O28, O30, O31 and O32: when a step is defined, and what a step and an instruction change
and leave (spec `10_state.md` rules R17 to R27, `40_step_dispatch.md` rules R63, R69). -/

namespace Sys2Proof.Machine

/-! ## Where a step is defined -/

theorem runInstr_next (i : Instr) (w : Word) (s : State) : ∃ t, runInstr i w s = .next t := by
  obtain ⟨u, hu⟩ := exec_next i s
  cases hh : heldForInput i s <;> simp [runInstr, hh, hu]

theorem runWord_next (w : Word) (s : State) : ∃ t, runWord w s = .next t := by
  unfold runWord
  split
  · exact runInstr_next _ w s
  · exact ⟨_, rfl⟩

theorem runCycle_next (s : State) : ∃ t, runCycle s = .next t := by
  unfold runCycle
  split
  · exact runWord_next _ s
  · exact ⟨_, rfl⟩

/-- Settles O19, by the run state. -/
theorem stepIsDefinedExactlyWhileRunning : Obligations.StepIsDefinedExactlyWhileRunning := by
  intro s
  refine ⟨fun h => ?_, fun h => ?_⟩
  · simpa only [step, h] using runCycle_next s
  · cases hr : s.runState with
    | running => exact absurd hr h
    | haltedNormal | haltedFault => simp only [step, hr]

/-! ## The pc -/

/-- The end of a step leaves the record of a fault as it is. -/
theorem finishStep_of_fault {pc : Nat} {w : Word} {s : State} {f : RunFault} (h : s.runState = .haltedFault f) :
    (finishStep pc w s).runState = .haltedFault f := by
  rw [finishStep_runState, State.haltCheck_runState, h, if_neg fun c => by cases c.1]

/-- A step that is not held executes the instruction its word decodes to. -/
theorem step_executes {s t : State} {i : Instr} (hpc : s.pc < s.nI) (hd : decode (s.imem s.pc) = .ok i)
    (hh : heldForInput i s = false) (h : step s = .next t) :
    ∃ u, exec i s = .next u ∧ t = finishStep s.pc s.fetch u := by
  obtain ⟨-, ⟨hle, -⟩ | ⟨-, hno, -⟩ | ⟨k, -, hk, hheld, -⟩ | ⟨k, u, -, hk, -, hu, rfl⟩⟩ := step_cases h
  · omega
  · exact absurd hd (supported_eq_false.mp hno i)
  · cases hk.symm.trans hd
    simp [hh] at hheld
  · cases hk.symm.trans hd
    exact ⟨u, hu, rfl⟩

/-- Settles O23: an instruction that is not held takes a fault, or completes with the pc of the table. -/
theorem pcMovesByTheTable : Obligations.PcMovesByTheTable := by
  intro s t i hrun hpc hd hh h
  obtain ⟨u, hu, rfl⟩ := step_executes hpc hd hh h
  rw [finishStep_pc]
  refine ⟨fun ⟨f, hf⟩ => ?_, fun hok => ?_⟩
  · obtain ⟨-, rfl⟩ := exec_fault hu hrun (runState_of_finishStep_fault hf)
    rfl
  · obtain ⟨f, rfl⟩ | ⟨hheld, -⟩ | ⟨-, htable, -⟩ := exec_outcome hu hrun
    · exact absurd (finishStep_of_fault rfl) (hok f)
    · simp [hh] at hheld
    · exact htable

/-! ## The program and the memory -/

/-- Settles O27: a step runs the program it finds. -/
theorem stepKeepsProgramAndCounts : Obligations.StepKeepsProgramAndCounts := by
  intro s t h
  obtain ⟨hconfig, hnI, hnW, himem⟩ := step_sameProgram h
  exact ⟨hnI, hnW, hconfig, himem⟩

/-- A step that changes memory stored one word, by the `sw` it fetched. -/
theorem step_mem {s t : State} (h : step s = .next t) :
    t.mem = s.mem ∨ ∃ rt rs imm, decode (s.imem s.pc) = .ok (.sw rt rs imm) ∧
      s.inDataRegion (s.effectiveAddress rs imm) = true ∧
      t.mem = s.mem.write (s.effectiveAddress rs imm).toNat (s.readField rt) := by
  obtain ⟨-, ⟨-, rfl⟩ | ⟨-, -, rfl⟩ | ⟨i, -, -, -, rfl⟩ | ⟨i, u, -, hd, -, hu, rfl⟩⟩ := step_cases h
  · exact .inl rfl
  · exact .inl rfl
  · exact .inl rfl
  · rw [finishStep_mem]
    obtain e | ⟨rt, rs, imm, rfl, hin, e⟩ := exec_mem hu
    · exact .inl e
    · exact .inr ⟨rt, rs, imm, hd, hin, e⟩

/-- Settles O28: the one word a store writes is the one at its effective address. -/
theorem onlyStoresChangeMemory : Obligations.OnlyStoresChangeMemory := by
  intro s t a h hne
  obtain e | ⟨rt, rs, imm, hd, hin, e⟩ := step_mem h
  · exact absurd (by rw [e]) hne
  · obtain ⟨hlow, hhigh⟩ := State.inDataRegion_iff.mp hin
    have ha : a = (s.effectiveAddress rs imm).toNat := by
      by_contra hother
      exact hne (by rw [e, Memory.read_write_other _ hother])
    exact ⟨rt, rs, imm, hd, by omega, by omega, by omega⟩

/-! ## The registers -/

/-- Settles O31. -/
theorem registerZeroIsNeverWritten : Obligations.RegisterZeroIsNeverWritten :=
  ⟨fun _ _ _ => exec_readReg_zero, fun _ _ => step_readReg_zero⟩

/-- Settles O32: the frame of an instruction's effect, and a fault changes the run state alone. -/
theorem onlyListedRegistersAreWritten : Obligations.OnlyListedRegistersAreWritten := by
  intro i s t h
  refine ⟨fun r hr => exec_frame h hr, fun f hrun hf r => ?_⟩
  obtain ⟨-, rfl⟩ := exec_fault h hrun hf
  rfl

/-- LO and HI are in the write column of `mult` and `div` alone (R19, R20). -/
theorem hiLo_notMem_writeSet (i : Instr) (s : State) :
    (∃ rs rt, i = .mult rs rt ∨ i = .div rs rt) ∨ (regLO ∉ writeSet i s ∧ regHI ∉ writeSet i s) := by
  cases i with
  | mult rs rt => exact .inl ⟨rs, rt, .inl rfl⟩
  | div rs rt => exact .inl ⟨rs, rt, .inr rfl⟩
  | syscall => right; simp only [writeSet]; split <;> decide
  | beq | bne | j | sw => right; simp [writeSet]
  | addu rd | and rd | or rd | slt rd | subu rd | mfhi rd | mflo rd | addiu rd | lw rd =>
    right
    simp [writeSet, (regOf_ne_LO rd).symm, (regOf_ne_HI rd).symm]

/-- Settles O30: LO and HI are outside the write column of every other instruction, and a faulting one writes nothing. -/
theorem onlyMultAndDivWriteHiLo : Obligations.OnlyMultAndDivWriteHiLo := by
  intro s t h
  obtain ⟨hrun, ⟨-, rfl⟩ | ⟨-, -, rfl⟩ | ⟨i, -, -, -, rfl⟩ | ⟨i, u, -, hd, -, hu, rfl⟩⟩ := step_cases h
  · exact .inl ⟨rfl, rfl⟩
  · exact .inl ⟨rfl, rfl⟩
  · exact .inl ⟨rfl, rfl⟩
  · rw [finishStep_readReg, finishStep_readReg]
    by_cases hf : ∃ f, u.runState = .haltedFault f
    · obtain ⟨f, hf⟩ := hf
      obtain ⟨-, rfl⟩ := exec_fault hu hrun hf
      exact .inl ⟨rfl, rfl⟩
    · obtain ⟨rs, rt, hi⟩ | ⟨hlo, hhi⟩ := hiLo_notMem_writeSet i s
      · refine .inr ⟨rs, rt, ?_, fun f hff => hf ⟨f, runState_of_finishStep_fault hff⟩⟩
        rcases hi with rfl | rfl
        · exact .inl hd
        · exact .inr hd
      · exact .inl ⟨exec_frame hu hlo, exec_frame hu hhi⟩

end Sys2Proof.Machine
end

section
/-! PROOF. Obligation O33: the read column of R19 (spec `10_state.md`). Two states that differ in register `r` agree once `r` is
overwritten in both; every operation commutes with the overwriting, and so every instruction that does not read `r` keeps the
agreement. -/

namespace Sys2Proof.Machine

section
variable (s : State) (r : RegIndex) (v : Word)

/-! ## Operations on a state with one register overwritten -/

@[simp] theorem State.poke_poke (w : Word) : (s.poke r v).poke r w = s.poke r w := by
  simp [State.poke]

@[simp] theorem State.poke_advance : s.advance.poke r v = (s.poke r v).advance := rfl
@[simp] theorem State.poke_haltNormal : s.haltNormal.poke r v = (s.poke r v).haltNormal := rfl
@[simp] theorem State.poke_takeFault (f : RunFault) : (s.takeFault f).poke r v = (s.poke r v).takeFault f := rfl
@[simp] theorem State.poke_pushOut (n : Int) : (s.pushOut n).poke r v = (s.poke r v).pushOut n := rfl
@[simp] theorem State.poke_dropInput : s.dropInput.poke r v = (s.poke r v).dropInput := rfl
@[simp] theorem State.poke_setMem (m : Memory) : (s.setMem m).poke r v = (s.poke r v).setMem m := rfl

/-- Overwriting the written register undoes the write; overwriting another one commutes with it. -/
@[simp] theorem State.poke_writeReg (q : RegIndex) (w : Word) :
    (s.writeReg q w).poke r v = if q = r then s.poke r v else (s.poke r v).writeReg q w := by
  unfold State.writeReg
  by_cases hq : q = 0
  · simp [hq]
  · by_cases hqr : q = r
    · subst hqr; simp [State.poke, hq]
    · have hne : (q : Nat) ≠ r := fun h => hqr (Fin.ext h)
      simp [State.poke, hq, hqr, Vector.set_comm _ _ hne]

@[simp] theorem State.poke_writeField (f : RegField) (w : Word) :
    (s.writeField f w).poke r v = if regOf f = r then s.poke r v else (s.poke r v).writeField f w :=
  s.poke_writeReg r v (regOf f) w

@[simp] theorem State.poke_transfer (a : Int) : (s.transfer a).poke r v = (s.poke r v).transfer a := by
  have hfault : (s.poke r v).targetFault a = s.targetFault a := rfl
  simp only [State.transfer, hfault]
  split <;> rfl

theorem State.readReg_poke_of_ne {q : RegIndex} (h : r ≠ q) : (s.poke r v).readReg q = s.readReg q := by
  rw [State.readReg_poke, if_neg (Ne.symm h)]

theorem State.readField_poke_of_ne {f : RegField} (h : r ≠ regOf f) : (s.poke r v).readField f = s.readField f :=
  s.readReg_poke_of_ne r v h

@[simp] theorem State.poke_branchTarget (imm : ImmField) : (s.poke r v).branchTarget imm = s.branchTarget imm := rfl
@[simp] theorem State.poke_divFaults (a b : Int) : (s.poke r v).divFaults a b = s.divFaults a b := rfl
@[simp] theorem State.poke_memRead (a : Int) : (s.poke r v).memRead a = s.memRead a := rfl
@[simp] theorem State.poke_inDataRegion (a : Int) : (s.poke r v).inDataRegion a = s.inDataRegion a := rfl

theorem State.effectiveAddress_poke_of_ne {rs : RegField} (h : r ≠ regOf rs) (imm : ImmField) :
    (s.poke r v).effectiveAddress rs imm = s.effectiveAddress rs imm := by
  rw [State.effectiveAddress, s.readField_poke_of_ne r v h, State.effectiveAddress]

@[simp] theorem State.writeHiLo_poke_poke (hi lo w : Word) :
    ((s.poke r v).writeHiLo hi lo).poke r w = (s.writeHiLo hi lo).poke r w := by
  simp [State.writeHiLo]

@[simp] theorem readInteger_poke_poke (w : Word) :
    (readInteger (s.poke r v)).poke r w = (readInteger s).poke r w := by
  simp only [readInteger, State.poke_inp]
  split <;> simp

end

/-! ## Instructions -/

/-- `syscall` reads `$v0`, and `$a0` for service 1. -/
theorem execSyscall_poke {s : State} {r : RegIndex} (h : r ∉ readSet .syscall s) (v w : Word) :
    mapNext (·.poke r w) (execSyscall (s.poke r v)) = mapNext (·.poke r w) (execSyscall s) := by
  have hv0 : r ≠ regV0 := by
    rintro rfl
    exact h (by simp only [readSet]; split <;> simp)
  have hservice : (s.poke r v).service = s.service := by
    rw [State.service, s.readReg_poke_of_ne r v hv0, State.service]
  have hprint (h1 : s.service = 1) : (printInteger (s.poke r v)).poke r w = (printInteger s).poke r w := by
    have ha0 : r ≠ regA0 := by
      rintro rfl
      have h1' : S (s.readReg regV0) = 1 := h1
      exact h (by simp [readSet, h1'])
    simp [printInteger, s.readReg_poke_of_ne r v ha0]
  simp only [execSyscall, hservice, mapNext_ite, mapNext_next, readInteger_poke_poke]
  split
  · next h1 => rw [hprint h1]
  · simp [exitRun]

/-- From two states that differ in a register an instruction does not read, the results agree once that register is
overwritten in both. -/
theorem exec_poke {i : Instr} {s : State} {r : RegIndex} (h : r ∉ readSet i s) (v w : Word) :
    mapNext (·.poke r w) (exec i (s.poke r v)) = mapNext (·.poke r w) (exec i s) := by
  cases i with
  | addu rd rs rt | and rd rs rt | or rd rs rt | slt rd rs rt | subu rd rs rt =>
    obtain ⟨hrs, hrt⟩ : r ≠ regOf rs ∧ r ≠ regOf rt := by simpa [readSet] using h
    simp [exec, execAddu, execAnd, execOr, execSlt, execSubu, aluR, State.readField_poke_of_ne, hrs, hrt]
  | div rs rt | mult rs rt | beq rs rt | bne rs rt =>
    obtain ⟨hrs, hrt⟩ : r ≠ regOf rs ∧ r ≠ regOf rt := by simpa [readSet] using h
    simp [exec, execDiv, execMult, execBeq, execBne, mapNext_ite, State.readField_poke_of_ne, hrs, hrt]
  | mfhi rd =>
    have hhi : r ≠ regHI := by simpa [readSet] using h
    simp [exec, execMfhi, s.readReg_poke_of_ne r v hhi]
  | mflo rd =>
    have hlo : r ≠ regLO := by simpa [readSet] using h
    simp [exec, execMflo, s.readReg_poke_of_ne r v hlo]
  | syscall => exact execSyscall_poke h v w
  | addiu rt rs imm =>
    have hrs : r ≠ regOf rs := by simpa [readSet] using h
    simp [exec, execAddiu, s.readField_poke_of_ne r v hrs]
  | j a => simp [exec, execJ]
  | lw rt rs imm =>
    have hrs : r ≠ regOf rs := by simpa [readSet] using h
    simp only [exec, execLw, State.poke_memRead, s.effectiveAddress_poke_of_ne r v hrs]
    split <;> simp
  | sw rt rs imm =>
    obtain ⟨hrs, hrt⟩ : r ≠ regOf rs ∧ r ≠ regOf rt := by simpa [readSet] using h
    cases hd : s.inDataRegion (s.effectiveAddress rs imm) <;>
      simp [exec, execSw, State.memWrite, hd, State.effectiveAddress_poke_of_ne, State.readField_poke_of_ne, hrs, hrt]

/-- Settles O33: the two results agree once the register is overwritten in both. -/
theorem unreadRegistersDoNotMatter : Obligations.UnreadRegistersDoNotMatter := by
  intro i s t u r v hr ht hu
  have h := exec_poke hr v 0
  rw [hu, ht, mapNext_next, mapNext_next] at h
  exact Host.Outcome.next.inj h

end Sys2Proof.Machine
end

section
/-! PROOF. Obligation O55: a load after a store to the same address (spec `10_state.md` rule R28, `20_memory.md` rule R42). -/

namespace Sys2Proof.Machine

/-- A store that completes wrote its word inside the data region and advanced. -/
theorem exec_sw_completes {rt rs : RegField} {imm : ImmField} {s t : State} (h : exec (.sw rt rs imm) s = .next t)
    (ht : ∀ f, t.runState ≠ .haltedFault f) : s.inDataRegion (s.effectiveAddress rs imm) = true ∧
      t = (s.setMem (s.mem.write (s.effectiveAddress rs imm).toNat (s.readField rt))).advance := by
  obtain ⟨hd, e⟩ | ⟨-, e⟩ := exec_sw_cases rt rs imm s <;> rw [e] at h <;> cases h
  · exact ⟨hd, rfl⟩
  · exact absurd rfl (ht _)

/-- A load inside the data region reads the word there (R95). -/
theorem exec_lw_inside {rt rs : RegField} {imm : ImmField} {s t : State} (h : exec (.lw rt rs imm) s = .next t)
    (hd : s.inDataRegion (s.effectiveAddress rs imm) = true) :
    t = (s.writeField rt (s.mem.read (s.effectiveAddress rs imm).toNat)).advance := by
  obtain ⟨-, e⟩ | ⟨hno, -⟩ := exec_lw_cases rt rs imm s
  · rw [e] at h
    cases h
    rfl
  · simp [hd] at hno

theorem State.readField_writeField_same (s : State) {f : RegField} (hf : f ≠ 0) (v : Word) :
    (s.writeField f v).readField f = v := by
  rw [State.readField, State.readReg_writeField, if_pos ⟨rfl, fun h => hf (regOf_eq_zero.mp h)⟩]

/-- Settles O55: the store leaves the counts, so the load's address is inside the data region, and reads the word stored. -/
theorem loadAfterStoreReturnsThePattern : Obligations.LoadAfterStoreReturnsThePattern := by
  intro s t u rt rs rd rb imm disp hwf hrun hrd hst htrun haddr hld
  obtain ⟨hd, rfl⟩ := exec_sw_completes hst fun f hf => by rw [htrun] at hf; cases hf
  have hu := exec_lw_inside hld (haddr.symm ▸ hd)
  rw [haddr] at hu
  subst hu
  refine ⟨?_, by simpa using hrun⟩
  calc State.readField _ rd = _ := State.readField_writeField_same _ hrd _
    _ = s.readField rt := Memory.read_write_same hwf _ _

end Sys2Proof.Machine
end

section
/-! PROOF. Obligations O3 and O5: what the decoder answers on a word built from fields (spec `30_encoding.md` rules R50 to R52,
R56, R57). -/

namespace Sys2Proof

/-! ## R-format: one equation per funct, for every value of every field -/

section
variable (rs rt rd : RegField) (sh : BitVec 5)

theorem decode_wordR (fn : BitVec 6) : decode (wordR rs rt rd sh fn) = decodeR (wordR rs rt rd sh fn) := by
  rw [decode, opcodeOf_wordR]
  rfl

@[simp] theorem decode_wordR_addu : decode (wordR rs rt rd sh 0x21#6) = .ok (.addu rd rs rt) := by
  simp [decode_wordR, decodeR, functOf_wordR, rdOf_wordR, rsOf_wordR, rtOf_wordR]

@[simp] theorem decode_wordR_and : decode (wordR rs rt rd sh 0x24#6) = .ok (.and rd rs rt) := by
  simp [decode_wordR, decodeR, functOf_wordR, rdOf_wordR, rsOf_wordR, rtOf_wordR]

@[simp] theorem decode_wordR_or : decode (wordR rs rt rd sh 0x25#6) = .ok (.or rd rs rt) := by
  simp [decode_wordR, decodeR, functOf_wordR, rdOf_wordR, rsOf_wordR, rtOf_wordR]

@[simp] theorem decode_wordR_slt : decode (wordR rs rt rd sh 0x2A#6) = .ok (.slt rd rs rt) := by
  simp [decode_wordR, decodeR, functOf_wordR, rdOf_wordR, rsOf_wordR, rtOf_wordR]

@[simp] theorem decode_wordR_subu : decode (wordR rs rt rd sh 0x23#6) = .ok (.subu rd rs rt) := by
  simp [decode_wordR, decodeR, functOf_wordR, rdOf_wordR, rsOf_wordR, rtOf_wordR]

@[simp] theorem decode_wordR_div : decode (wordR rs rt rd sh 0x1A#6) = .ok (.div rs rt) := by
  simp [decode_wordR, decodeR, functOf_wordR, rsOf_wordR, rtOf_wordR]

@[simp] theorem decode_wordR_mult : decode (wordR rs rt rd sh 0x18#6) = .ok (.mult rs rt) := by
  simp [decode_wordR, decodeR, functOf_wordR, rsOf_wordR, rtOf_wordR]

@[simp] theorem decode_wordR_mfhi : decode (wordR rs rt rd sh 0x10#6) = .ok (.mfhi rd) := by
  simp [decode_wordR, decodeR, functOf_wordR, rdOf_wordR]

@[simp] theorem decode_wordR_mflo : decode (wordR rs rt rd sh 0x12#6) = .ok (.mflo rd) := by
  simp [decode_wordR, decodeR, functOf_wordR, rdOf_wordR]

@[simp] theorem decode_wordR_syscall : decode (wordR rs rt rd sh 0x0C#6) = .ok .syscall := by
  simp [decode_wordR, decodeR, functOf_wordR]

/-- R57 for every funct, the unsupported ones included: `shamt` takes no part in decoding. -/
theorem decode_wordR_shamt (sh' : BitVec 5) (fn : BitVec 6) :
    decode (wordR rs rt rd sh fn) = decode (wordR rs rt rd sh' fn) := by
  simp only [decode_wordR, decodeR, functOf_wordR, rdOf_wordR, rsOf_wordR, rtOf_wordR]

end

/-! ## I-format and J-format: one equation per opcode -/

section
variable (rs rt : RegField) (imm : ImmField)

@[simp] theorem decode_wordI_beq : decode (wordI 0x04#6 rs rt imm) = .ok (.beq rs rt imm) := by
  simp [decode, opcodeOf_wordI, rsOf_wordI, rtOf_wordI, immOf_wordI]

@[simp] theorem decode_wordI_bne : decode (wordI 0x05#6 rs rt imm) = .ok (.bne rs rt imm) := by
  simp [decode, opcodeOf_wordI, rsOf_wordI, rtOf_wordI, immOf_wordI]

@[simp] theorem decode_wordI_addiu : decode (wordI 0x09#6 rs rt imm) = .ok (.addiu rt rs imm) := by
  simp [decode, opcodeOf_wordI, rsOf_wordI, rtOf_wordI, immOf_wordI]

@[simp] theorem decode_wordI_lw : decode (wordI 0x23#6 rs rt imm) = .ok (.lw rt rs imm) := by
  simp [decode, opcodeOf_wordI, rsOf_wordI, rtOf_wordI, immOf_wordI]

@[simp] theorem decode_wordI_sw : decode (wordI 0x2B#6 rs rt imm) = .ok (.sw rt rs imm) := by
  simp [decode, opcodeOf_wordI, rsOf_wordI, rtOf_wordI, immOf_wordI]

end

@[simp] theorem decode_wordJ_j (address : AddressField) : decode (wordJ 0x02#6 address) = .ok (.j address) := by
  simp [decode, opcodeOf_wordJ, addressOf_wordJ]

/-! ## The obligations -/

/-- Settles O3: each instruction's encoding is a word of its format, and the decoder's equation for that format and selector
reads every operand back. -/
theorem decodeAfterEncodeIsIdentity : Obligations.DecodeAfterEncodeIsIdentity := by
  intro i
  cases i with
  | addu rd rs rt => exact decode_wordR_addu rs rt rd 0
  | and rd rs rt => exact decode_wordR_and rs rt rd 0
  | or rd rs rt => exact decode_wordR_or rs rt rd 0
  | slt rd rs rt => exact decode_wordR_slt rs rt rd 0
  | subu rd rs rt => exact decode_wordR_subu rs rt rd 0
  | div rs rt => exact decode_wordR_div rs rt 0 0
  | mult rs rt => exact decode_wordR_mult rs rt 0 0
  | mfhi rd => exact decode_wordR_mfhi 0 0 rd 0
  | mflo rd => exact decode_wordR_mflo 0 0 rd 0
  | syscall => exact decode_wordR_syscall 0 0 0 0
  | addiu rt rs imm => exact decode_wordI_addiu rs rt imm
  | beq rs rt imm => exact decode_wordI_beq rs rt imm
  | bne rs rt imm => exact decode_wordI_bne rs rt imm
  | j address => exact decode_wordJ_j address
  | lw rt rs imm => exact decode_wordI_lw rs rt imm
  | sw rt rs imm => exact decode_wordI_sw rs rt imm

/-- Settles O5: `shamt` takes no part for any funct, and the decoder's equations for the functs of `div`, `mult`, `mfhi`,
`mflo` and `syscall` answer without the other ignored fields. -/
theorem ignoredFieldsDoNotMatter : Obligations.IgnoredFieldsDoNotMatter := by
  intro rs rt rd rs' rt' rd' sh sh' fn
  refine ⟨decode_wordR_shamt rs rt rd sh sh' fn, ?_, ?_, ?_⟩
  · rintro (rfl | rfl) <;> simp
  · rintro (rfl | rfl) <;> simp
  · rintro rfl
    simp

end Sys2Proof
end

section
/-! PROOF. Obligation O4: encoding what a word decodes to (spec `30_encoding.md` rules R56, R57). -/

namespace Sys2Proof

/-! ## A word rebuilt in its format, once its opcode is known -/

theorem wordR_of_opcode {w : Word} (h : opcodeOf w = 0) :
    wordR (rsOf w) (rtOf w) (rdOf w) (shamtOf w) (functOf w) = w := by
  conv_rhs => rw [← wordR_of_fields w, h]
  rfl

theorem wordI_of_opcode {w : Word} {op : BitVec 6} (h : opcodeOf w = op) :
    wordI op (rsOf w) (rtOf w) (immOf w) = w := by
  subst h
  exact wordI_of_fields w

theorem wordJ_of_opcode {w : Word} {op : BitVec 6} (h : opcodeOf w = op) : wordJ op (addressOf w) = w := by
  subst h
  exact wordJ_of_fields w

/-! ## The used bits of a word -/

/-- A mask on a word of opcode 0 acts field by field. -/
theorem and_eq_wordR {w : Word} (h : opcodeOf w = 0) (m : Word) :
    w &&& m = wordR (rsOf w &&& rsOf m) (rtOf w &&& rtOf m) (rdOf w &&& rdOf m) (shamtOf w &&& shamtOf m)
      (functOf w &&& functOf m) := by
  have hop : opcodeOf (w &&& m) = 0 := by
    calc opcodeOf (w &&& m) = opcodeOf w &&& opcodeOf m := BitVec.extractLsb'_and
      _ = 0 := by rw [h]; exact BitVec.zero_and
  rw [← wordR_of_opcode hop]
  simp only [rsOf, rtOf, rdOf, shamtOf, functOf, BitVec.extractLsb'_and]

section
variable {w : Word} (h : opcodeOf w = 0)
include h

theorem and_usedBits_threeRegisters : w &&& 0xFFFFF83F#32 = wordR (rsOf w) (rtOf w) (rdOf w) 0 (functOf w) := by
  calc w &&& 0xFFFFF83F#32 = wordR (rsOf w &&& .allOnes 5) (rtOf w &&& .allOnes 5) (rdOf w &&& .allOnes 5)
        (shamtOf w &&& 0#5) (functOf w &&& .allOnes 6) := and_eq_wordR h _
    _ = _ := by simp only [BitVec.and_allOnes, BitVec.and_zero]; rfl

theorem and_usedBits_twoRegisters : w &&& 0xFFFF003F#32 = wordR (rsOf w) (rtOf w) 0 0 (functOf w) := by
  calc w &&& 0xFFFF003F#32 = wordR (rsOf w &&& .allOnes 5) (rtOf w &&& .allOnes 5) (rdOf w &&& 0#5)
        (shamtOf w &&& 0#5) (functOf w &&& .allOnes 6) := and_eq_wordR h _
    _ = _ := by simp only [BitVec.and_allOnes, BitVec.and_zero]; rfl

theorem and_usedBits_destination : w &&& 0xFC00F83F#32 = wordR 0 0 (rdOf w) 0 (functOf w) := by
  calc w &&& 0xFC00F83F#32 = wordR (rsOf w &&& 0#5) (rtOf w &&& 0#5) (rdOf w &&& .allOnes 5)
        (shamtOf w &&& 0#5) (functOf w &&& .allOnes 6) := and_eq_wordR h _
    _ = _ := by simp only [BitVec.and_allOnes, BitVec.and_zero]; rfl

theorem and_usedBits_noOperand : w &&& 0xFC00003F#32 = wordR 0 0 0 0 (functOf w) := by
  calc w &&& 0xFC00003F#32 = wordR (rsOf w &&& 0#5) (rtOf w &&& 0#5) (rdOf w &&& 0#5)
        (shamtOf w &&& 0#5) (functOf w &&& .allOnes 6) := and_eq_wordR h _
    _ = _ := by simp only [BitVec.and_allOnes, BitVec.and_zero]; rfl

end

theorem and_usedBits_all (w : Word) : w &&& 0xFFFFFFFF#32 = w := BitVec.and_allOnes

/-- Settles O4: an R-format word keeps the fields its instruction's mask covers, which are the operands, and a word of any
other format is rebuilt from its opcode and its fields. -/
theorem encodeAfterDecodeKeepsUsedBits : Obligations.EncodeAfterDecodeKeepsUsedBits := by
  intro w i h
  obtain ⟨h0, hR⟩ | hIJ := decode_cases h
  · rcases hR with ⟨hf, rfl⟩ | ⟨hf, rfl⟩ | ⟨hf, rfl⟩ | ⟨hf, rfl⟩ | ⟨hf, rfl⟩ | ⟨hf, rfl⟩ | ⟨hf, rfl⟩ | ⟨hf, rfl⟩ |
      ⟨hf, rfl⟩ | ⟨hf, rfl⟩ <;>
    simp only [encode, usedBits, and_usedBits_threeRegisters h0, and_usedBits_twoRegisters h0, and_usedBits_destination h0,
      and_usedBits_noOperand h0, hf]
  · rcases hIJ with ⟨hop, rfl⟩ | ⟨hop, rfl⟩ | ⟨hop, rfl⟩ | ⟨hop, rfl⟩ | ⟨hop, rfl⟩ | ⟨hop, rfl⟩ <;>
    simp only [encode, usedBits, and_usedBits_all, wordI_of_opcode hop, wordJ_of_opcode hop]

end Sys2Proof
end

section
/-! PROOF. Obligations O6 and O7: which words each row of the opcode table selects, and which no row does (spec
`30_encoding.md` rules R56, R59). -/

namespace Sys2Proof

/-- A funct is refused exactly on the default branch of `decodeR`. -/
theorem decodeR_isOk_eq_false (w : Word) : (decodeR w).isOk = false ↔
    functOf w ∉ [0x0C#6, 0x10#6, 0x12#6, 0x18#6, 0x1A#6, 0x21#6, 0x23#6, 0x24#6, 0x25#6, 0x2A#6] := by
  unfold decodeR
  split <;> simp_all [Except.isOk, Except.toBool]

/-- Settles O7: a word of opcode 0 is left to `decodeR`, and any other is refused exactly on the default branch of `decode`. -/
theorem illegalWordsAreOutsideTheLists : Obligations.IllegalWordsAreOutsideTheLists := by
  intro w
  rw [supported, ← decodeR_isOk_eq_false, decode]
  split
  case h_1 h0 => simp [h0]
  all_goals simp_all [Except.isOk, Except.toBool]

/-- Only the opcode, and the funct of a word of opcode 0, decide whether a word is an instruction (R57). -/
theorem supported_congr {w v : Word} (ho : opcodeOf w = opcodeOf v) (hf : opcodeOf v = 0 → functOf w = functOf v) :
    supported w = supported v := by
  rw [Bool.eq_iff_iff, ← not_iff_not, Bool.not_eq_true, Bool.not_eq_true, illegalWordsAreOutsideTheLists w,
    illegalWordsAreOutsideTheLists v, ho]
  by_cases h0 : opcodeOf v = 0
  · rw [hf h0]
  · simp only [h0, false_and]

/-! ## The 16 rows -/

theorem opcodeTable_disjoint : ∀ r ∈ opcodeTable, ∀ q ∈ opcodeTable,
    r.pattern &&& q.mask = q.pattern &&& r.mask → r = q := by decide

theorem opcodeTable_mnemonic_injective : ∀ r ∈ opcodeTable, ∀ q ∈ opcodeTable, r.mnemonic = q.mnemonic → r = q := by
  decide

/-- A row's pattern is itself a word of the row that the decoder takes, and its mask is one of two. -/
theorem opcodeTable_pattern : ∀ r ∈ opcodeTable, r.pattern &&& r.mask = r.pattern ∧ supported r.pattern = true ∧
    (r.mask = 0xFC00003F#32 ∨ r.mask = 0xFC000000#32 ∧ opcodeOf r.pattern ≠ 0) := by decide

/-- Every instruction has a row: its encoding matches it, and the row's mask selects used bits only (R57). -/
theorem exists_row (i : Instr) : ∃ r ∈ opcodeTable,
    r.mnemonic = mnemonicOf i ∧ encode i &&& r.mask = r.pattern ∧ usedBits i &&& r.mask = r.mask := by
  cases i <;> simp [opcodeTable, opcodeRowsR, opcodeRowsIJ, mnemonicOf, encode, usedBits, wordR_mask, wordI_mask, wordJ_mask]

/-- A word that decodes matches the row of its instruction. -/
theorem exists_row_of_decode {w : Word} {i : Instr} (h : decode w = .ok i) :
    ∃ r ∈ opcodeTable, r.mnemonic = mnemonicOf i ∧ w &&& r.mask = r.pattern := by
  obtain ⟨r, hr, hm, he, hu⟩ := exists_row i
  refine ⟨r, hr, hm, ?_⟩
  calc w &&& r.mask = w &&& usedBits i &&& r.mask := by rw [BitVec.and_assoc, hu]
    _ = r.pattern := by rw [← encodeAfterDecodeKeepsUsedBits w i h, he]

/-- A word that matches a row is an instruction. -/
theorem supported_of_row {w : Word} {r : Row} (hr : r ∈ opcodeTable) (h : w &&& r.mask = r.pattern) :
    supported w = true := by
  obtain ⟨hp, hs, hm⟩ := opcodeTable_pattern r hr
  have hwp : w &&& r.mask = r.pattern &&& r.mask := h.trans hp.symm
  rw [← hs]
  obtain hm | ⟨hm, h0⟩ := hm <;> rw [hm] at hwp
  · exact supported_congr (extractLsb'_eq_of_mask hwp 26 6 (by decide)) fun _ => extractLsb'_eq_of_mask hwp 0 6 (by decide)
  · exact supported_congr (extractLsb'_eq_of_mask hwp 26 6 (by decide)) fun h => absurd h h0

theorem row_unique {w : Word} {r q : Row} (hr : r ∈ opcodeTable) (hq : q ∈ opcodeTable) (hwr : w &&& r.mask = r.pattern)
    (hwq : w &&& q.mask = q.pattern) : r = q := by
  refine opcodeTable_disjoint r hr q hq ?_
  rw [← hwr, ← hwq, BitVec.and_assoc, BitVec.and_assoc, BitVec.and_comm r.mask]

/-- Settles O6: an instruction's word matches the one row of its mnemonic, and a word that matches a row is an instruction,
whose own row can only be that one. -/
theorem rowSelectsByMaskAndMatch : Obligations.RowSelectsByMaskAndMatch := by
  refine ⟨fun w row hrow => ⟨?_, fun h => ?_⟩, fun w r q => row_unique⟩
  · rintro ⟨i, hi, hm⟩
    obtain ⟨r, hr, hrm, hw⟩ := exists_row_of_decode hi
    rwa [← opcodeTable_mnemonic_injective r hr row hrow (hrm.trans hm)]
  · obtain ⟨i, hi⟩ := Machine.decode_of_supported (supported_of_row hrow h)
    obtain ⟨r, hr, hrm, hw⟩ := exists_row_of_decode hi
    exact ⟨i, hi, by rw [← row_unique hr hrow hw h, hrm]⟩

end Sys2Proof
end

section
/-! PROOF. Obligation O8: the disassembly text depends on the used bits alone (spec `30_encoding.md` rules R57, R61). -/

namespace Sys2Proof

/-- The used bits as a function of the mnemonic: instructions of one mnemonic ignore the same fields (R57). -/
def usedBitsOf (mnemonic : String) : Word :=
  if mnemonic ∈ ["addu", "and", "or", "slt", "subu"] then 0xFFFFF83F
  else if mnemonic ∈ ["div", "mult"] then 0xFFFF003F
  else if mnemonic ∈ ["mfhi", "mflo"] then 0xFC00F83F
  else if mnemonic = "syscall" then 0xFC00003F
  else 0xFFFFFFFF

theorem usedBits_eq_usedBitsOf (i : Instr) : usedBits i = usedBitsOf (mnemonicOf i) := by
  cases i <;> rfl

theorem encode_injective : Function.Injective encode := fun i j h => by
  have := congrArg decode h
  rwa [decodeAfterEncodeIsIdentity, decodeAfterEncodeIsIdentity, Except.ok.injEq] at this

/-- A word that agrees in the used bits decodes to the same instruction: it matches the same row, so it decodes to an
instruction of the same mnemonic, and the two instructions have one encoding. -/
theorem decode_of_usedBits_eq {w w' : Word} {i : Instr} (h : decode w = .ok i)
    (hw : w' &&& usedBits i = w &&& usedBits i) : decode w' = .ok i := by
  have he : encode i = w' &&& usedBits i := (encodeAfterDecodeKeepsUsedBits w i h).trans hw.symm
  obtain ⟨r, hr, hm, hei, hu⟩ := exists_row i
  have hrow : w' &&& r.mask = r.pattern := by rw [← hei, he, BitVec.and_assoc, hu]
  obtain ⟨j, hj, hjm⟩ := (rowSelectsByMaskAndMatch.1 w' r hr).mpr hrow
  have hij : encode j = encode i := by
    rw [he, encodeAfterDecodeKeepsUsedBits w' j hj, usedBits_eq_usedBitsOf j, usedBits_eq_usedBitsOf i, hjm, hm]
  rwa [encode_injective hij] at hj

namespace Machine

theorem disassemble_eq_none (radix : TextRadix) (w : Word) : disassemble radix w = none ↔ supported w = false := by
  unfold disassemble supported
  cases decode w <;> simp [Except.isOk, Except.toBool]

/-- Settles O8: no text stands exactly for no instruction, and words with the same used bits decode to one instruction. -/
theorem textShowsNoIgnoredField : Obligations.TextShowsNoIgnoredField := by
  refine fun radix w => ⟨disassemble_eq_none radix w, fun i w' h hw => ?_⟩
  rw [disassemble_of_decode h, disassemble_of_decode (decode_of_usedBits_eq h hw)]

end Machine
end Sys2Proof
end

section
/-! PROOF. Obligations O1 and O2: the worked words, and the fields as shift and modulo (spec `30_encoding.md` rules R53, R56). -/

namespace Sys2Proof

theorem toNat_field (w : Word) (lo width : Nat) : (w.extractLsb' lo width).toNat = w.toNat / 2 ^ lo % 2 ^ width := by
  rw [BitVec.extractLsb'_toNat, Nat.shiftRight_eq_div_pow]

theorem toNat_lowField (w : Word) (width : Nat) : (w.extractLsb' 0 width).toNat = w.toNat % 2 ^ width := by
  rw [BitVec.extractLsb'_toNat, Nat.shiftRight_zero]

/-- Settles O1: nine closed instances of the decoder. -/
theorem workedWordsDecode : Obligations.WorkedWordsDecode := by
  unfold Obligations.WorkedWordsDecode
  decide

/-- Settles O2: each field is a slice of the word, read by shift and modulo; the fields at bit 0 need no shift. -/
theorem fieldsAreShiftAndModulo : Obligations.FieldsAreShiftAndModulo := fun w =>
  ⟨toNat_field w 26 6, toNat_field w 21 5, toNat_field w 16 5, toNat_field w 11 5, toNat_field w 6 5, toNat_lowField w 6,
    toNat_lowField w 16, toNat_lowField w 26⟩

end Sys2Proof
end

section
/-! PROOF. Obligations O17, O18, O22, O24 and O50: the parts of a step around the instruction it executes (spec
`40_step_dispatch.md` rules R63 to R72). -/

namespace Sys2Proof.Machine

/-! ## Fetch, validation and dispatch (R66 to R68) -/

/-- A running machine inside its program runs the word it fetches. -/
theorem step_of_running {s : State} (hrun : s.runState = .running) (hpc : s.pc < s.nI) :
    step s = runWord (s.imem s.pc) s := by
  simp only [step, hrun, runCycle, if_pos hpc, State.fetch]

theorem runWord_of_decode {w : Word} {i : Instr} (h : decode w = .ok i) (s : State) : runWord w s = runInstr i w s := by
  simp only [runWord, h]

theorem runWord_of_unsupported {w : Word} (h : supported w = false) (s : State) :
    runWord w s = .next (s.takeFault (.decodeError w s.pc)) := by
  cases hd : decode w with
  | ok i => exact absurd hd (supported_eq_false.mp h i)
  | error e => simp only [runWord, hd]

theorem runInstr_of_exec {i : Instr} {s t : State} (h : exec i s = .next t) (w : Word) :
    runInstr i w s = .next (if heldForInput i s then s else finishStep s.pc w t) := by
  cases hh : heldForInput i s <;> simp [runInstr, hh, h]

theorem step_of_exec {s t : State} {i : Instr} (hrun : s.runState = .running) (hpc : s.pc < s.nI)
    (hd : decode (s.imem s.pc) = .ok i) (ht : exec i s = .next t) :
    step s = .next (if heldForInput i s then s else finishStep s.pc (s.imem s.pc) t) := by
  rw [step_of_running hrun hpc, runWord_of_decode hd, runInstr_of_exec ht]

/-- Settles O17: every instruction has a next state, and the step ends with it. -/
theorem stepRunsDecodedInstruction : Obligations.StepRunsDecodedInstruction := by
  intro s i hrun hpc hd
  obtain ⟨t, ht⟩ := exec_next i s
  exact ⟨t, ht, step_of_exec hrun hpc hd ht⟩

/-- Settles O18: validation takes the fault before anything is executed. -/
theorem stepRaisesDecodeError : Obligations.StepRaisesDecodeError := fun s hrun hpc hno =>
  (step_of_running hrun hpc).trans (runWord_of_unsupported hno s)

/-! ## The halt check (R65, R70) -/

/-- Settles O24: a step that does not fault ends by the halt check, or was held inside the program. -/
theorem runningPcStaysInProgram : Obligations.RunningPcStaysInProgram :=
  fun _ _ h => step_fetchesInProgram h

theorem heldForInput_iff {i : Instr} {s : State} :
    heldForInput i s = true ↔ i = .syscall ∧ s.service = 5 ∧ s.inp = [] := by
  simp [heldForInput, and_assoc]

/-- A held step changes nothing. -/
theorem step_of_held {s : State} {i : Instr} (hrun : s.runState = .running) (hpc : s.pc < s.nI)
    (hd : decode (s.imem s.pc) = .ok i) (hh : heldForInput i s = true) : step s = .next s := by
  obtain ⟨t, ht⟩ := exec_next i s
  rw [step_of_exec hrun hpc hd ht, if_pos hh]

/-- The snapshot shows no field that the halt check or the event changes. -/
@[simp] theorem finishStep_snapshot (pc : Nat) (w : Word) (s : State) : (finishStep pc w s).snapshot = s.snapshot := by
  simp [State.snapshot, State.dataWords, State.dmem]

@[simp] theorem State.haltCheck_snapshot (s : State) : s.haltCheck.snapshot = s.snapshot := by
  simp [State.snapshot, State.dataWords, State.dmem]

/-- When the run continues, the event shows the registers and the data memory (R102). -/
theorem finishStep_trace_of_running {pc : Nat} {w : Word} {s : State} (h : (finishStep pc w s).runState = .running) :
    (finishStep pc w s).trace =
      s.trace ++ [{ pc := pc, word := w, snapshot := some (finishStep pc w s).snapshot }] := by
  rw [finishStep_runState] at h
  simp [eventOf, h]

/-- The run state after a step that raised no fault: the exit syscall and the pc bound, and nothing else, end the run. -/
theorem step_runState_of_no_fault {s t : State} {i : Instr} (hrun : s.runState = .running) (hpc : s.pc < s.nI)
    (hd : decode (s.imem s.pc) = .ok i) (h : step s = .next t) (hok : ∀ f, t.runState ≠ .haltedFault f) :
    t.runState = if (i = .syscall ∧ s.service = 10) ∨ t.nI ≤ t.pc then .haltedNormal else .running := by
  cases hh : heldForInput i s with
  | true =>
    cases (step_of_held hrun hpc hd hh).symm.trans h
    obtain ⟨-, h5, -⟩ := heldForInput_iff.mp hh
    rw [hrun, if_neg]
    omega
  | false =>
    obtain ⟨u, hu, rfl⟩ := step_executes hpc hd hh h
    obtain ⟨f, rfl⟩ | ⟨hheld, -⟩ | ⟨-, -, hend⟩ := exec_outcome hu hrun
    · exact absurd (finishStep_of_fault rfl) (hok f)
    · simp [hh] at hheld
    · rw [finishStep_runState, State.haltCheck_runState, finishStep_nI, finishStep_pc, hend]
      by_cases hexit : i = .syscall ∧ s.service = 10 <;> simp [hexit]

/-- A step of an instruction of the program leaves the pc in `0 .. nI` (R21). -/
theorem step_pc_le {s t : State} (hpc : s.pc < s.nI) (h : step s = .next t) : t.pc ≤ t.nI := by
  rw [(step_sameProgram h).nI]
  obtain ⟨-, ⟨-, rfl⟩ | ⟨-, -, rfl⟩ | ⟨i, -, -, -, rfl⟩ | ⟨i, u, -, -, -, hu, rfl⟩⟩ := step_cases h
  · exact hpc.le
  · exact hpc.le
  · exact hpc.le
  · exact (finishStep_pc _ _ u).trans_le (exec_pc_le hu hpc)

/-- Settles O22: the run state after a completed instruction, the range of the pc, and the event of a run that goes on. -/
theorem haltCheckAfterExecution : Obligations.HaltCheckAfterExecution := by
  intro s t i hrun hpc hd h hok
  have hend : t.runState = if (i = .syscall ∧ S (s.readReg 2) = 10) ∨ t.nI ≤ t.pc then .haltedNormal else .running :=
    step_runState_of_no_fault hrun hpc hd h hok
  refine ⟨?_, ?_, fun hle => (step_pc_le hpc h).antisymm hle, fun hh hgo => ?_⟩
  · rw [hend]; split <;> simp [*]
  · rw [hend]; split <;> simp [*]
  · obtain ⟨u, hu, rfl⟩ := step_executes hpc hd hh h
    obtain ⟨-, -, -, htrace⟩ := exec_keeps_constants hu
    rw [finishStep_trace_of_running hgo, htrace]
    rfl

/-! ## A jump to itself (R72, R92) -/

theorem core_run_succ {s t : State} (h : step s = .next t) (n : Nat) :
    Sys2Proof.core.run (n + 1) s = Sys2Proof.core.run n t := by
  have hcore : Sys2Proof.core.step s = .next t := h
  simp only [Host.Core.run, hcore]

theorem exec_j_to_itself {s : State} {a : AddressField} (hpc : s.pc < s.nI) (ha : a.toNat = s.pc) :
    exec (.j a) s = .next s := by
  have htarget : jumpTarget a = (s.pc : Int) := congrArg Nat.cast ha
  obtain ⟨-, -, e⟩ | ⟨hdata, -⟩ | ⟨hout, -⟩ := s.transfer_cases (jumpTarget a)
  · rw [exec, execJ, e, htarget, Int.toNat_natCast]
    rfl
  · omega
  · omega

/-- A jump to itself adds its event and changes nothing else. -/
theorem step_j_to_itself {s : State} {a : AddressField} (hrun : s.runState = .running) (hpc : s.pc < s.nI)
    (hd : decode (s.imem s.pc) = .ok (.j a)) (ha : a.toNat = s.pc) :
    step s = .next (finishStep s.pc (s.imem s.pc) s) := by
  have hheld : heldForInput (.j a) s = false := by simp [heldForInput]
  rw [step_of_exec hrun hpc hd (exec_j_to_itself hpc ha), hheld, if_neg Bool.false_ne_true]

/-- Settles O50, by induction on the number of steps: the next state fetches the same jump at the same index. -/
theorem jumpToItselfNeverEnds : Obligations.JumpToItselfNeverEnds := by
  intro s a n
  induction n generalizing s with
  | zero => exact fun hrun _ _ _ => ⟨s, rfl, hrun, rfl, rfl, rfl, rfl⟩
  | succ n ih =>
    intro hrun hpc hd ha
    have hstep := step_j_to_itself hrun hpc hd ha
    have hrun' : (finishStep s.pc (s.imem s.pc) s).runState = .running := by
      rw [finishStep_runState, State.haltCheck_runState, if_neg fun c => by omega, hrun]
    obtain ⟨t, ht, htrun, htpc, htregs, htmem, htrace⟩ :=
      ih (finishStep s.pc (s.imem s.pc) s) hrun' (by simpa using hpc) (by simpa [State.imem] using hd) (by simpa using ha)
    refine ⟨t, (core_run_succ hstep n).trans ht, htrun, by simpa using htpc, by simpa using htregs,
      by simpa using htmem, ?_⟩
    rw [htrace, finishStep_trace, List.length_append, List.length_singleton]
    omega

end Sys2Proof.Machine
end

section
/-! PROOF. Obligations O36 to O40: the three-register ALU instructions (spec `41_alu_r.md` rules R73 to R78). Each decodes by
its funct and writes one function of its two sources to `rd`; what is left is the value of that function. -/

namespace Sys2Proof

/-- The opcode and the funct leave only the fields of the R-format open (R50, R56). -/
theorem decode_of_funct {w : Word} {fn : BitVec 6} (ho : opcodeOf w = 0) (hf : functOf w = fn) :
    decode w = decode (wordR (rsOf w) (rtOf w) (rdOf w) (shamtOf w) fn) := by
  rw [← hf, wordR_of_opcode ho]

/-- `wrap32` as R12 defines it. -/
theorem toNat_wrap32 (z : Int) : ((wrap32 z).toNat : Int) = z % 2 ^ 32 := by
  rw [BitVec.toNat_ofInt]
  exact Int.toNat_of_nonneg (Int.emod_nonneg z (by decide))

namespace Machine

/-- The shape of R73: the destination gets `f` of the two sources. -/
theorem writesOneRegister_of_aluR {i : Instr} {f : Word → Word → Word} {rd rs rt : RegField} {s : State}
    (h : exec i s = aluR f rd rs rt s) :
    WritesOneRegister i s (regOf rd) (f (s.readField rs) (s.readField rt)) :=
  writesOneRegister_of_exec h

/-! ## The function each instruction computes -/

section
variable (rd rs rt : RegField) (s : State)

theorem exec_addu : exec (.addu rd rs rt) s = aluR (fun a b => wrap32 (S a + S b)) rd rs rt s := rfl
theorem exec_and : exec (.and rd rs rt) s = aluR (· &&& ·) rd rs rt s := rfl
theorem exec_or : exec (.or rd rs rt) s = aluR (· ||| ·) rd rs rt s := rfl
theorem exec_slt : exec (.slt rd rs rt) s = aluR sltResult rd rs rt s := rfl
theorem exec_subu : exec (.subu rd rs rt) s = aluR (fun a b => wrap32 (S a - S b)) rd rs rt s := rfl

end

theorem sltResult_of_lt {a b : Word} (h : S a < S b) : sltResult a b = 1 := if_pos h

theorem sltResult_of_le {a b : Word} (h : S b ≤ S a) : sltResult a b = 0 := if_neg h.not_gt

/-! ## The obligations -/

/-- Settles O36: the value written is `wrap32` of the sum. -/
theorem adduAddsModulo : Obligations.AdduAddsModulo := by
  refine ⟨fun w ho hf => ?_, fun rd rs rt s => ⟨_, ?_, writesOneRegister_of_aluR (exec_addu rd rs rt s)⟩⟩
  · exact (decode_of_funct ho hf).trans (decode_wordR_addu _ _ _ _)
  · exact toNat_wrap32 (S (s.readField rs) + S (s.readField rt))

/-- Settles O37: the value written is the AND of the two patterns. -/
theorem andIsBitwise : Obligations.AndIsBitwise := by
  refine ⟨fun w ho hf => ?_, fun rd rs rt s => ⟨_, fun k => ?_, writesOneRegister_of_aluR (exec_and rd rs rt s)⟩⟩
  · exact (decode_of_funct ho hf).trans (decode_wordR_and _ _ _ _)
  · exact BitVec.getLsbD_and

/-- Settles O38: the value written is the OR of the two patterns. -/
theorem orIsBitwise : Obligations.OrIsBitwise := by
  refine ⟨fun w ho hf => ?_, fun rd rs rt s => ⟨_, fun k => ?_, writesOneRegister_of_aluR (exec_or rd rs rt s)⟩⟩
  · exact (decode_of_funct ho hf).trans (decode_wordR_or _ _ _ _)
  · exact BitVec.getLsbD_or

/-- Settles O39: the value written is `sltResult`, by the two orders of the sources. -/
theorem sltComparesSigned : Obligations.SltComparesSigned := by
  refine ⟨fun w ho hf => ?_, fun rd rs rt s => ?_⟩
  · exact (decode_of_funct ho hf).trans (decode_wordR_slt _ _ _ _)
  have hwrites : WritesOneRegister (.slt rd rs rt) s (regOf rd) (sltResult (s.readField rs) (s.readField rt)) :=
    writesOneRegister_of_aluR (exec_slt rd rs rt s)
  exact ⟨fun h => sltResult_of_lt h ▸ hwrites, fun h => sltResult_of_le h ▸ hwrites⟩

/-- Settles O40: the value written is `wrap32` of the difference. -/
theorem subuSubtractsModulo : Obligations.SubuSubtractsModulo := by
  refine ⟨fun w ho hf => ?_, fun rd rs rt s => ⟨_, ?_, writesOneRegister_of_aluR (exec_subu rd rs rt s)⟩⟩
  · exact (decode_of_funct ho hf).trans (decode_wordR_subu _ _ _ _)
  · exact toNat_wrap32 (S (s.readField rs) - S (s.readField rt))

end Machine
end Sys2Proof
end

section
/-! PROOF. Obligations O42 to O45: `div`, `mult` and the HI/LO moves (spec `42_muldiv_hilo.md` rules R80 to R83). -/

namespace Sys2Proof

/-! ## Division toward zero (R80) -/

/-- The truncated quotient is the quotient of the absolute values, with the sign the rule of signs gives it. -/
theorem tdiv_eq_sign_mul_natAbs_div (a b : Int) :
    a.tdiv b = a.sign * b.sign * ((a.natAbs / b.natAbs : Nat) : Int) := by
  have habs : (a.tdiv b).natAbs = a.natAbs / b.natAbs := Int.natAbs_tdiv a b
  rw [← Int.sign_mul_natAbs (a.tdiv b), habs, Int.sign_tdiv]
  split
  · next hlt => rw [Nat.div_eq_of_lt hlt, Nat.cast_zero, mul_zero, mul_zero]
  · rfl

theorem tmod_eq_zero_or_sign_eq (a b : Int) : a.tmod b = 0 ∨ (a.tmod b).sign = a.sign := by
  by_cases hdvd : b ∣ a
  · exact .inl (Int.tmod_eq_zero_of_dvd hdvd)
  · exact .inr (by rw [Int.sign_tmod, if_neg hdvd])

theorem natAbs_tmod_lt (a : Int) {b : Int} (hb : b ≠ 0) : (a.tmod b).natAbs < b.natAbs := by
  rw [Int.natAbs_tmod]
  exact Nat.mod_lt _ (Int.natAbs_pos.mpr hb)

/-- Every quotient of two words but `-2^31 / -1` fits a word. -/
theorem S_wrap32_tdiv {x y : Word} (h : ¬ (S x = -(2 ^ 31) ∧ S y = -1)) :
    S (wrap32 ((S x).tdiv (S y))) = (S x).tdiv (S y) := by
  have hxy : x ≠ BitVec.intMin 32 ∨ y ≠ -1#32 := by
    rw [← not_and_or]
    rintro ⟨rfl, rfl⟩
    exact h (by decide)
  have hquot : (x.sdiv y).toInt = (S x).tdiv (S y) := BitVec.toInt_sdiv_of_ne_or_ne x y hxy
  rw [← hquot, wrap32, BitVec.ofInt_toInt]

/-- Every remainder of two words fits a word. -/
theorem S_wrap32_tmod (x y : Word) : S (wrap32 ((S x).tmod (S y))) = (S x).tmod (S y) := by
  rw [← BitVec.toInt_srem, wrap32, BitVec.ofInt_toInt]

/-! ## The product (R81) -/

/-- The product of two words fits 64 bits. -/
theorem toInt_ofInt_mul (x y : Word) : (BitVec.ofInt 64 (S x * S y)).toInt = S x * S y := by
  have hle : S x * S y ≤ 2 ^ 62 := BitVec.toInt_mul_toInt_le
  have hge : -2 ^ 62 ≤ S x * S y := BitVec.le_toInt_mul_toInt
  rw [BitVec.toInt_ofInt]
  exact Int.bmod_eq_of_le (by omega) (by omega)

namespace Machine

/-! ## What `div` and `mult` do -/

/-- When `div` faults: the zero divisor, and the overflow pair under `DIV_OVERFLOW = fault` (decision D5). -/
theorem State.divFaults_iff {s : State} {a b : Int} :
    s.divFaults a b = true ↔ b = 0 ∨ (a = -(2 ^ 31) ∧ b = -1) ∧ s.config.divOverflow = .fault := by
  simp [State.divFaults, divOverflows]

section
variable {rs rt : RegField} {s : State}

theorem raisesFault_of_div (h : s.divFaults (S (s.readField rs)) (S (s.readField rt)) = true) :
    RaisesFault (.div rs rt) s .arithmeticFault :=
  if_pos h

/-- A `div` that does not fault writes the truncated quotient and its remainder, each narrowed to a word. -/
theorem writesHiLo_of_div (h : ¬ s.divFaults (S (s.readField rs)) (S (s.readField rt)) = true) :
    WritesHiLo (.div rs rt) s (wrap32 ((S (s.readField rs)).tmod (S (s.readField rt))))
      (wrap32 ((S (s.readField rs)).tdiv (S (s.readField rt)))) := by
  have hrem (a b : Int) : a - a.tdiv b * b = a.tmod b := by rw [Int.tmod_def, mul_comm]
  rw [← hrem]
  exact writesHiLo_of_exec (if_neg h)

end

/-- `mult` writes the two halves of the 64-bit product pattern. -/
theorem writesHiLo_of_mult (rs rt : RegField) (s : State) :
    let p := BitVec.ofInt 64 (S (s.readField rs) * S (s.readField rt))
    WritesHiLo (.mult rs rt) s (p.extractLsb' 32 32) (p.extractLsb' 0 32) :=
  writesHiLo_of_exec rfl

/-! ## What the HI/LO moves do (R82, R83) -/

theorem writesOneRegister_of_mfhi (rd : RegField) (s : State) :
    WritesOneRegister (.mfhi rd) s (regOf rd) (s.readReg regHI) :=
  writesOneRegister_of_exec rfl

theorem writesOneRegister_of_mflo (rd : RegField) (s : State) :
    WritesOneRegister (.mflo rd) s (regOf rd) (s.readReg regLO) :=
  writesOneRegister_of_exec rfl

/-- From reset every register but `$gp` is 0, HI and LO among them (R31). -/
theorem resetState_readReg_of_ne (cfg : Config) (img : ProgramImage) (inp : List Word) {r : RegIndex} (h : r ≠ regGP) :
    (resetState cfg img inp).readReg r = 0 := by
  rw [resetState_readReg, if_neg h]

/-! ## The obligations -/

/-- Settles O42: the fault condition separates the cases; outside the overflow pair the quotient and the remainder fit a word,
so narrowing keeps them. -/
theorem divTruncatesOrFaults : Obligations.DivTruncatesOrFaults := by
  refine ⟨fun w ho hf => ?_, fun rs rt s => ⟨fun hb => ?_, fun ha hb hcfg => ?_, fun ha hb hcfg => ?_, fun hb hno => ?_⟩⟩
  · exact (decode_of_funct ho hf).trans (decode_wordR_div _ _ _ _)
  · exact raisesFault_of_div (State.divFaults_iff.mpr (.inl hb))
  · exact raisesFault_of_div (State.divFaults_iff.mpr (.inr ⟨⟨ha, hb⟩, hcfg⟩))
  · have hwrites := writesHiLo_of_div (rs := rs) (rt := rt) (s := s) (by simp [State.divFaults_iff, hb, hcfg])
    have hhi : wrap32 (Int.tmod (-(2 ^ 31)) (-1)) = 0 := by decide
    have hlo : wrap32 (Int.tdiv (-(2 ^ 31)) (-1)) = 0x80000000#32 := by decide
    rwa [ha, hb, hhi, hlo] at hwrites
  · have hok : ¬ s.divFaults (S (s.readField rs)) (S (s.readField rt)) = true := by
      rw [State.divFaults_iff]
      exact not_or.mpr ⟨hb, fun c => hno c.1⟩
    exact ⟨_, _, tdiv_eq_sign_mul_natAbs_div _ _, (Int.tdiv_mul_add_tmod _ _).symm, natAbs_tmod_lt _ hb,
      tmod_eq_zero_or_sign_eq _ _, _, _, S_wrap32_tmod _ _, S_wrap32_tdiv hno, writesHiLo_of_div hok⟩

/-- Settles O43: HI and LO are the halves of the 64-bit pattern of the product, which fits 64 bits. -/
theorem multGivesExactProduct : Obligations.MultGivesExactProduct := by
  refine ⟨fun w ho hf => ?_, fun rs rt s => ⟨_, _, ?_, writesHiLo_of_mult rs rt s⟩⟩
  · exact (decode_of_funct ho hf).trans (decode_wordR_mult _ _ _ _)
  · rw [halves_append]
    exact toInt_ofInt_mul (s.readField rs) (s.readField rt)

/-- Settles O44: `mfhi` copies what HI holds, which is 0 from reset. -/
theorem mfhiCopiesHi : Obligations.MfhiCopiesHi := by
  refine ⟨fun w ho hf => ?_, writesOneRegister_of_mfhi, fun rd cfg img inp => ?_⟩
  · exact (decode_of_funct ho hf).trans (decode_wordR_mfhi _ _ _ _)
  · rw [← resetState_readReg_of_ne cfg img inp (r := regHI) (by decide)]
    exact writesOneRegister_of_mfhi rd _

/-- Settles O45: `mflo` copies what LO holds, which is 0 from reset. -/
theorem mfloCopiesLo : Obligations.MfloCopiesLo := by
  refine ⟨fun w ho hf => ?_, writesOneRegister_of_mflo, fun rd cfg img inp => ?_⟩
  · exact (decode_of_funct ho hf).trans (decode_wordR_mflo _ _ _ _)
  · rw [← resetState_readReg_of_ne cfg img inp (r := regLO) (by decide)]
    exact writesOneRegister_of_mflo rd _

end Machine
end Sys2Proof
end

section
/-! PROOF. Obligations O20 and O46: the services of `syscall` (spec `43_syscall.md` rules R84 to R86), and the step that waits
for input. -/

namespace Sys2Proof.Machine

section
variable {s : State}

/-! ## The service the selector names (R84) -/

theorem exec_syscall_of_print (h : s.service = 1) : exec .syscall s = .next (printInteger s) := if_pos h

theorem exec_syscall_of_read (h : s.service = 5) : exec .syscall s = .next (readInteger s) := by
  simp [exec, execSyscall, h]

theorem exec_syscall_of_exit (h : s.service = 10) : exec .syscall s = .next (exitRun s) := by
  simp [exec, execSyscall, h]

theorem exec_syscall_of_no_service (h1 : s.service ≠ 1) (h5 : s.service ≠ 5) (h10 : s.service ≠ 10) :
    exec .syscall s = .next s.advance := by
  simp [exec, execSyscall, h1, h5, h10]

/-! ## Reading an integer (R85) -/

theorem readInteger_of_nil (h : s.inp = []) : readInteger s = s := by
  simp only [readInteger, h]

theorem readInteger_of_cons {n : Word} {ns : List Word} (h : s.inp = n :: ns) :
    readInteger s = (s.dropInput.writeReg regV0 n).advance := by
  simp only [readInteger, h]

/-- With input, service 5 moves the next integer into `$v0` and the pc on by 1, and leaves the rest as it is. -/
theorem exec_syscall_consumes_input {n : Word} {ns : List Word} (h5 : s.service = 5) (h : s.inp = n :: ns) :
    ∃ t, exec .syscall s = .next t ∧ (∀ r, t.readReg r = if r = regV0 then n else s.readReg r) ∧ t.pc = s.pc + 1 ∧
      SameMemory s t ∧ SameSurroundings { s with inp := ns } t := by
  have hv0 : regV0 ≠ 0 := by decide
  refine ⟨(s.dropInput.writeReg regV0 n).advance, ?_, fun r => ?_, ?_, fun a => ?_, ?_⟩
  · rw [exec_syscall_of_read h5, readInteger_of_cons h]
  · simp [State.readReg_writeReg, hv0]
  · simp
  · simp
  · simp [SameSurroundings, h]

/-- A step that is not held ends with what its instruction answers. -/
theorem step_of_not_held {t : State} {i : Instr} (hrun : s.runState = .running) (hpc : s.pc < s.nI)
    (hd : decode (s.imem s.pc) = .ok i) (hh : heldForInput i s = false) (ht : exec i s = .next t) :
    step s = .next (finishStep s.pc (s.imem s.pc) t) := by
  rw [step_of_exec hrun hpc hd ht, hh, if_neg Bool.false_ne_true]

end

/-! ## The obligations -/

/-- Settles O46: the word by its funct, then one clause for each value of the selector. -/
theorem syscallServices : Obligations.SyscallServices := by
  refine ⟨fun w ho hf => ?_, fun s => ⟨fun h1 => ?_, fun h5 hinp => ?_, fun n ns h5 hinp => ?_, fun h10 => ?_,
    fun h1 h5 h10 => ?_⟩⟩
  · exact (decode_of_funct ho hf).trans (decode_wordR_syscall _ _ _ _)
  · exact exec_syscall_of_print h1
  · rw [exec_syscall_of_read h5, readInteger_of_nil hinp]
  · exact exec_syscall_consumes_input h5 hinp
  · exact exec_syscall_of_exit h10
  · exact exec_syscall_of_no_service h1 h5 h10

/-- Settles O20: with no input the step is held; supplied with one, the same `syscall` consumes it and the step ends, which
changes none of the fields the statement names. -/
theorem readServiceWaitsForInput : Obligations.ReadServiceWaitsForInput := by
  intro s n ns hrun hpc hd h5 hinp
  refine ⟨step_of_held hrun hpc hd (heldForInput_iff.mpr ⟨rfl, h5, hinp⟩), ?_⟩
  have hinp' : (s.supplyInput (n :: ns)).inp = n :: ns := by simp [hinp]
  have hgo : heldForInput .syscall (s.supplyInput (n :: ns)) = false := by simp [heldForInput]
  obtain ⟨t, ht, hregs, htpc, hmem, -, -, -, -, hout, htinp, -⟩ :=
    exec_syscall_consumes_input (s := s.supplyInput (n :: ns)) h5 hinp'
  have hstep := step_of_not_held (s := s.supplyInput (n :: ns)) hrun hpc hd hgo ht
  refine ⟨_, hstep, ?_, fun r hr => ?_, ?_, ?_, ?_, fun a => ?_⟩
  · rw [finishStep_readReg, hregs, if_pos rfl]
  · rw [finishStep_readReg, hregs, if_neg hr, State.supplyInput_readReg]
  · rw [finishStep_inp, htinp]
  · rw [finishStep_pc, htpc, State.supplyInput_pc]
  · rw [finishStep_out, hout, State.supplyInput_out]
  · rw [finishStep_mem, hmem, State.supplyInput_mem]

end Sys2Proof.Machine
end

section
/-! PROOF. Obligation O41: add immediate (spec `44_addiu.md` rule R87). -/

namespace Sys2Proof

/-- A word is the I-format word of its opcode and fields (R51), so the decoder's equation for that opcode applies to it. -/
theorem decode_of_opcode {w : Word} {op : BitVec 6} (h : opcodeOf w = op) :
    decode w = decode (wordI op (rsOf w) (rtOf w) (immOf w)) := by
  rw [wordI_of_opcode h]

namespace Machine

theorem writesOneRegister_of_addiu (rt rs : RegField) (imm : ImmField) (s : State) :
    WritesOneRegister (.addiu rt rs imm) s (regOf rt) (wrap32 (S (s.readField rs) + zext16 imm)) :=
  writesOneRegister_of_exec rfl

/-- Settles O41: the value written is `wrap32` of the sum with `zext_16(imm)`, the unsigned reading of the field. -/
theorem addiuZeroExtends : Obligations.AddiuZeroExtends := by
  refine ⟨fun w ho => ?_, fun rt rs imm s => ⟨_, ?_, writesOneRegister_of_addiu rt rs imm s⟩⟩
  · exact (decode_of_opcode ho).trans (decode_wordI_addiu _ _ _)
  · exact toNat_wrap32 (S (s.readField rs) + zext16 imm)

end Machine
end Sys2Proof
end

section
/-! PROOF. Obligations O47, O48 and O49: the branches and the jump (spec `45_branch_jump.md` rules R88 to R92). -/

namespace Sys2Proof.Machine

/-! ## What an instruction that transfers to `t` does (R89), region by region -/

section
variable {i : Instr} {s : State} {t : Int} (h : exec i s = .next (s.transfer t))
include h

theorem exec_of_transfer_inProgram (hlow : 0 ≤ t) (hhigh : t < s.nI) : exec i s = .next { s with pc := t.toNat } := by
  obtain ⟨-, -, e⟩ | ⟨hdata, -⟩ | ⟨hout, -⟩ := s.transfer_cases t
  · exact h.trans (congrArg _ e)
  · omega
  · omega

theorem raisesFault_of_transfer_inData (hlow : s.nI ≤ t) (hhigh : t < (s.nI : Int) + s.nW) :
    RaisesFault i s (.controlFlowFault t .inData) := by
  obtain ⟨-, hprog, -⟩ | ⟨-, -, e⟩ | ⟨hout, -⟩ := s.transfer_cases t
  · omega
  · exact h.trans (congrArg _ e)
  · omega

/-- A target below 0 is outside both regions too (decision D7). -/
theorem raisesFault_of_transfer_illegal (hout : t < 0 ∨ (s.nI : Int) + s.nW ≤ t) :
    RaisesFault i s (.controlFlowFault t .illegal) := by
  obtain ⟨hlow, hprog, -⟩ | ⟨hlow, hhigh, -⟩ | ⟨-, e⟩ := s.transfer_cases t
  · omega
  · omega
  · exact h.trans (congrArg _ e)

end

/-! ## When each instruction transfers, and where to -/

theorem State.branchTarget_eq (s : State) (imm : ImmField) : s.branchTarget imm = (s.pc : Int) + imm.toInt := by
  rw [State.branchTarget, sext16_eq_toInt]

section
variable {rs rt : RegField} (imm : ImmField) {s : State}

theorem exec_beq_of_eq (h : s.readField rs = s.readField rt) :
    exec (.beq rs rt imm) s = .next (s.transfer ((s.pc : Int) + imm.toInt)) := by
  rw [← State.branchTarget_eq]
  exact if_pos (decide_eq_true h)

theorem exec_beq_of_ne (h : s.readField rs ≠ s.readField rt) : exec (.beq rs rt imm) s = .next s.advance :=
  if_neg fun hcond => h (of_decide_eq_true hcond)

theorem exec_bne_of_eq (h : s.readField rs = s.readField rt) : exec (.bne rs rt imm) s = .next s.advance :=
  if_pos (decide_eq_true h)

theorem exec_bne_of_ne (h : s.readField rs ≠ s.readField rt) :
    exec (.bne rs rt imm) s = .next (s.transfer ((s.pc : Int) + imm.toInt)) := by
  rw [← State.branchTarget_eq]
  exact if_neg fun hcond => h (of_decide_eq_true hcond)

end

theorem exec_j (a : AddressField) (s : State) : exec (.j a) s = .next (s.transfer a.toNat) := rfl

/-! ## The obligations -/

/-- Settles O47: the word by its opcode; on unequal patterns the pc advances, on equal ones the target's region decides. -/
theorem beqBranchesWhenEqual : Obligations.BeqBranchesWhenEqual := by
  refine ⟨fun w ho => ?_, fun rs rt imm s => ⟨fun hne => ?_, fun heq hlow hhigh => ?_, fun heq hlow hhigh => ?_,
    fun heq hout => ?_⟩⟩
  · exact (decode_of_opcode ho).trans (decode_wordI_beq _ _ _)
  · exact exec_beq_of_ne imm hne
  · exact exec_of_transfer_inProgram (exec_beq_of_eq imm heq) hlow hhigh
  · exact raisesFault_of_transfer_inData (exec_beq_of_eq imm heq) hlow hhigh
  · exact raisesFault_of_transfer_illegal (exec_beq_of_eq imm heq) hout

/-- Settles O48: as for `beq`, with the two outcomes of the comparison exchanged. -/
theorem bneBranchesWhenDifferent : Obligations.BneBranchesWhenDifferent := by
  refine ⟨fun w ho => ?_, fun rs rt imm s => ⟨fun heq => ?_, fun hne hlow hhigh => ?_, fun hne hlow hhigh => ?_,
    fun hne hout => ?_⟩⟩
  · exact (decode_of_opcode ho).trans (decode_wordI_bne _ _ _)
  · exact exec_bne_of_eq imm heq
  · exact exec_of_transfer_inProgram (exec_bne_of_ne imm hne) hlow hhigh
  · exact raisesFault_of_transfer_inData (exec_bne_of_ne imm hne) hlow hhigh
  · exact raisesFault_of_transfer_illegal (exec_bne_of_ne imm hne) hout

/-- Settles O49: `j` always transfers, and its field, read unsigned, is never below 0. -/
theorem jumpGoesToItsField : Obligations.JumpGoesToItsField := by
  refine ⟨fun w ho => ?_, fun a s => ⟨fun hhigh => ?_, fun hlow hhigh => ?_, fun hout => ?_⟩⟩
  · exact (congrArg decode (wordJ_of_opcode ho)).symm.trans (decode_wordJ_j _)
  · exact exec_of_transfer_inProgram (exec_j a s) (Int.natCast_nonneg _) (Int.ofNat_lt.mpr hhigh)
  · exact raisesFault_of_transfer_inData (exec_j a s) (Int.ofNat_le.mpr hlow) (by omega)
  · exact raisesFault_of_transfer_illegal (exec_j a s) (.inr (by omega))

end Sys2Proof.Machine
end

section
/-! PROOF. Obligations O51 to O54: the effective address, and what `lw` and `sw` do inside and outside the data region (spec
`46_load_store.md` rules R94 to R97). -/

namespace Sys2Proof

/-! ## Narrowing a number that is off the signed range by less than a period (R12) -/

theorem wrap32_add_period (z : Int) : wrap32 (z + 2 ^ 32) = wrap32 z := by
  apply BitVec.eq_of_toInt_eq
  rw [BitVec.toInt_ofInt, BitVec.toInt_ofInt]
  exact Int.add_bmod_right z (2 ^ 32)

theorem S_wrap32_of_lt {z : Int} (hlow : -(2 ^ 31) - 2 ^ 32 ≤ z) (hz : z < -(2 ^ 31)) : S (wrap32 z) = z + 2 ^ 32 := by
  rw [← wrap32_add_period]
  exact Machine.S_wrap32 (by omega) (by omega)

theorem S_wrap32_of_le {z : Int} (hz : 2 ^ 31 ≤ z) (hhigh : z < 2 ^ 31 + 2 ^ 32) : S (wrap32 z) = z - 2 ^ 32 := by
  rw [← Int.sub_add_cancel z (2 ^ 32), wrap32_add_period, Int.sub_add_cancel]
  exact Machine.S_wrap32 (by omega) (by omega)

namespace Machine

/-! ## The effective address (R94) -/

theorem State.effectiveAddress_eq (s : State) (rs : RegField) (imm : ImmField) :
    s.effectiveAddress rs imm = S (s.readField rs) + imm.toInt := by
  rw [State.effectiveAddress, sext16_eq_toInt]

theorem State.effectiveAddress_range (s : State) (rs : RegField) (imm : ImmField) :
    -(2 ^ 31) - 32768 ≤ s.effectiveAddress rs imm ∧ s.effectiveAddress rs imm ≤ 2 ^ 31 + 32766 := by
  have hbase := S_range (s.readField rs)
  have hdisp := sext16_range imm
  rw [State.effectiveAddress]
  omega

section
variable {s : State} {a : Int} (hbound : s.nI + s.nW ≤ 2 ^ 31 - 32768)
include hbound

/-- Under the launch bound the data region lies inside the signed range. -/
theorem State.S_wrap32_of_inDataRegion (h : s.inDataRegion a = true) : S (wrap32 a) = a := by
  obtain ⟨hlow, hhigh⟩ := State.inDataRegion_iff.mp h
  exact S_wrap32 (by omega) (by omega)

/-- An address past an end of the signed range wraps to the other end: below 0, or into the top 32768 addresses, which the
launch bound keeps free of data. -/
theorem State.inDataRegion_S_wrap32 (hlow : -(2 ^ 31) - 32768 ≤ a) (hhigh : a ≤ 2 ^ 31 + 32766) :
    s.inDataRegion (S (wrap32 a)) = s.inDataRegion a := by
  have houtside {b : Int} (h : b < s.nI ∨ (s.nI : Int) + s.nW ≤ b) : s.inDataRegion b = false :=
    State.inDataRegion_eq_false_iff.mpr h
  rcases Int.lt_or_le a (-(2 ^ 31)) with hunder | hunder
  · rw [S_wrap32_of_lt (by omega) hunder, houtside (by omega), houtside (by omega)]
  · rcases Int.lt_or_le a (2 ^ 31) with hover | hover
    · rw [S_wrap32 hunder hover]
    · rw [S_wrap32_of_le hover (by omega), houtside (by omega), houtside (by omega)]

end

/-! ## `lw` and `sw` inside and outside the data region (R95, R96) -/

/-- The data word of an address in the data region is the word of memory there (R33). -/
theorem State.dmem_of_le {s : State} {a : Int} (h : s.nI ≤ a) : s.dmem (a - s.nI).toNat = s.mem.read a.toNat :=
  congrArg s.mem.read (by omega)

section
variable {rt rs : RegField} {imm : ImmField} {s : State}

section
variable (hlow : s.nI ≤ s.effectiveAddress rs imm) (hhigh : s.effectiveAddress rs imm < (s.nI : Int) + s.nW)
include hlow hhigh

theorem writesOneRegister_of_lw :
    WritesOneRegister (.lw rt rs imm) s (regOf rt) (s.dmem (s.effectiveAddress rs imm - s.nI).toNat) := by
  obtain ⟨-, e⟩ | ⟨hout, -⟩ := exec_lw_cases rt rs imm s
  · rw [State.dmem_of_le hlow]
    exact writesOneRegister_of_exec e
  · have := State.inDataRegion_eq_false_iff.mp hout
    omega

theorem exec_sw_of_inside : exec (.sw rt rs imm) s =
    .next ((s.setMem (s.mem.write (s.effectiveAddress rs imm).toNat (s.readField rt))).advance) := by
  obtain ⟨-, e⟩ | ⟨hout, -⟩ := exec_sw_cases rt rs imm s
  · exact e
  · have := State.inDataRegion_eq_false_iff.mp hout
    omega

theorem lw_completes : ∃ t, exec (.lw rt rs imm) s = .next t ∧ t.pc = s.pc + 1 ∧ t.runState = s.runState := by
  obtain ⟨t, e, -, hpc, -, -, -, -, hrun, -⟩ := writesOneRegister_of_lw (rt := rt) hlow hhigh
  exact ⟨t, e, hpc, hrun⟩

theorem sw_completes : ∃ t, exec (.sw rt rs imm) s = .next t ∧ t.pc = s.pc + 1 ∧ t.runState = s.runState :=
  ⟨_, exec_sw_of_inside hlow hhigh, rfl, rfl⟩

end

section
variable (hout : s.effectiveAddress rs imm < s.nI ∨ (s.nI : Int) + s.nW ≤ s.effectiveAddress rs imm)
include hout

theorem raisesFault_of_lw : RaisesFault (.lw rt rs imm) s (.memoryFault (s.effectiveAddress rs imm)) := by
  obtain ⟨hin, -⟩ | ⟨-, e⟩ := exec_lw_cases rt rs imm s
  · have := State.inDataRegion_iff.mp hin
    omega
  · exact e

theorem raisesFault_of_sw : RaisesFault (.sw rt rs imm) s (.memoryFault (s.effectiveAddress rs imm)) := by
  obtain ⟨hin, -⟩ | ⟨-, e⟩ := exec_sw_cases rt rs imm s
  · have := State.inDataRegion_iff.mp hin
    omega
  · exact e

end
end

/-! ## The obligations -/

/-- Settles O51: an address in the 32-bit signed range wraps to itself, and one beyond it is outside the data region before
and after. -/
theorem effectiveAddressIsExact : Obligations.EffectiveAddressIsExact := by
  intro s rs imm
  obtain ⟨hlow, hhigh⟩ := s.effectiveAddress_range rs imm
  exact ⟨s.effectiveAddress_eq rs imm, hlow, hhigh, fun hbound =>
    ⟨State.inDataRegion_S_wrap32 hbound hlow hhigh, State.S_wrap32_of_inDataRegion hbound⟩⟩

/-- Settles O52: the word by its opcode; the address check comes before the write, so it does not depend on `rt`. -/
theorem lwLoadsOrFaults : Obligations.LwLoadsOrFaults := by
  refine ⟨fun w ho => ?_, fun rt rs imm s => ⟨s.effectiveAddress_eq rs imm, ?_, ?_⟩⟩
  · exact (decode_of_opcode ho).trans (decode_wordI_lw _ _ _)
  · exact writesOneRegister_of_lw
  · exact raisesFault_of_lw

/-- Settles O53: the word by its opcode; reading after the one write gives the stored pattern at its address and the old word
at every other. -/
theorem swStoresOrFaults : Obligations.SwStoresOrFaults := by
  refine ⟨fun w ho => ?_, fun rt rs imm s hwf => ⟨s.effectiveAddress_eq rs imm, fun hlow hhigh => ?_, ?_⟩⟩
  · exact (decode_of_opcode ho).trans (decode_wordI_sw _ _ _)
  · refine ⟨_, exec_sw_of_inside hlow hhigh, ?_, fun a ha => ?_, fun r => rfl, rfl, by simp [SameSurroundings]⟩
    · refine (State.dmem_of_le ?_).trans (Memory.read_write_same hwf _ _)
      exact hlow
    · exact Memory.read_write_other _ (by omega) _
  · exact raisesFault_of_sw

/-- Settles O54: the first and the last address of a data region that is not empty are inside it, their outer neighbours
outside. -/
theorem loadStoreBoundaries : Obligations.LoadStoreBoundaries := by
  refine fun rt rs imm s => ⟨fun ⟨hpos, hend⟩ => ?_, fun hend => ?_⟩
  · have hlow : s.nI ≤ s.effectiveAddress rs imm := by omega
    have hhigh : s.effectiveAddress rs imm < (s.nI : Int) + s.nW := by omega
    exact ⟨lw_completes hlow hhigh, sw_completes hlow hhigh⟩
  · have hout : s.effectiveAddress rs imm < s.nI ∨ (s.nI : Int) + s.nW ≤ s.effectiveAddress rs imm := by omega
    exact ⟨raisesFault_of_lw hout, raisesFault_of_sw hout⟩

end Machine
end Sys2Proof
end

section
/-! PROOF. Obligations O21 and O29: what a step does to the trace and to the console channels (spec
`47_host_interface.md` rules R100 to R102). -/

namespace Sys2Proof.Machine

/-! ## The event of a step (R102) -/

@[simp] theorem State.length_dataWords (s : State) : s.dataWords.length = s.nW := by
  simp [State.dataWords]

theorem State.getElem_dataWords (s : State) {k : Nat} (h : k < s.dataWords.length) : s.dataWords[k] = s.dmem k := by
  simp [State.dataWords]

/-- Emitting an event changes no field that `eventOf` reads, so the event is also that of the state the step ends in. -/
theorem finishStep_trace_eq (pc : Nat) (w : Word) (s : State) :
    (finishStep pc w s).trace = s.trace ++ [eventOf pc w (finishStep pc w s)] := by
  simp [eventOf]

/-- An executed instruction emits its event, with what the next state shows. -/
theorem step_trace_of_executed {s t : State} {i : Instr} (hpc : s.pc < s.nI) (hd : decode (s.imem s.pc) = .ok i)
    (hh : heldForInput i s = false) (h : step s = .next t) :
    t.trace = s.trace ++ [eventOf s.pc (s.imem s.pc) t] := by
  obtain ⟨u, hu, rfl⟩ := step_executes hpc hd hh h
  obtain ⟨-, -, -, htrace⟩ := exec_keeps_constants hu
  rw [finishStep_trace_eq, htrace]
  rfl

/-- Settles O21: a `DecodeError` changes the run state alone, and an executed instruction emits the event of the next state,
whose snapshot `eventOf` takes exactly when the run continues. -/
theorem stepEmitsOneEvent : Obligations.StepEmitsOneEvent := by
  intro s t hrun hpc h
  refine ⟨fun hno => ?_, fun i hd hh => ?_⟩
  · cases (stepRaisesDecodeError s hrun hpc hno).symm.trans h
    rfl
  · refine ⟨_, step_trace_of_executed hpc hd hh h, fun hend => if_neg hend, fun hgo => ?_⟩
    exact ⟨t.snapshot, if_pos hgo, rfl, t.length_dataWords, fun _ hk => t.getElem_dataWords hk⟩

/-! ## The channels (R100 to R102) -/

/-- Settles O29: only an executed instruction moves a channel, the output and the input by `exec_channels`, the trace by the
one event at the end of the step. -/
theorem channelsOnlyMoveForward : Obligations.ChannelsOnlyMoveForward := by
  intro s t h
  obtain ⟨-, ⟨-, rfl⟩ | ⟨-, -, rfl⟩ | ⟨i, -, -, -, rfl⟩ | ⟨i, u, hpc, hd, hh, hu, rfl⟩⟩ := step_cases h
  · exact ⟨.inl rfl, .inl rfl, .inl rfl⟩
  · exact ⟨.inl rfl, .inl rfl, .inl rfl⟩
  · exact ⟨.inl rfl, .inl rfl, .inl rfl⟩
  · obtain ⟨hout, hinp⟩ := exec_channels hu
    rw [finishStep_out, finishStep_inp, finishStep_readReg]
    exact ⟨hout.imp_right fun ⟨hgrow, hi, h1⟩ => ⟨hgrow, hi ▸ hd, h1⟩,
      hinp.imp_right fun ⟨hshrink, hi, h5⟩ => ⟨hshrink, hi ▸ hd, h5⟩,
      .inr ⟨_, step_trace_of_executed hpc hd hh h⟩⟩

end Sys2Proof.Machine
end

section
/-! PROOF. Obligations O34 and O35: read after write, and the canonical form of a memory is unique (spec `20_memory.md` rule
R42; log entry 5). -/

namespace Sys2Proof.Machine

theorem Memory.wf_cons {a : Nat} {w : Word} {m : Memory} :
    Memory.wf ((a, w) :: m) ↔ w ≠ 0 ∧ (∀ c ∈ m, a < c.1) ∧ m.wf := by
  simp only [Memory.wf, List.pairwise_cons, List.forall_mem_cons]
  tauto

theorem Memory.read_cons_same (a : Nat) (w : Word) (m : Memory) : Memory.read ((a, w) :: m) a = w := if_pos rfl

theorem Memory.read_cons_of_ne {a b : Nat} (h : b ≠ a) (w : Word) (m : Memory) :
    Memory.read ((a, w) :: m) b = m.read b :=
  if_neg h

/-- In a canonical memory the head cell has the least address at which a word other than 0 is read. -/
theorem Memory.head_le_of_read_ne_zero {a b : Nat} {w : Word} {m : Memory} (hm : Memory.wf ((a, w) :: m))
    (h : Memory.read ((a, w) :: m) b ≠ 0) : a ≤ b := by
  obtain ⟨-, hrising, -⟩ := Memory.wf_cons.mp hm
  refine Nat.le_of_not_lt fun hlt => h (Memory.read_of_below ?_)
  exact List.forall_mem_cons.mpr ⟨hlt, fun c hc => hlt.trans (hrising c hc)⟩

/-- Settles O34: the write keeps the canonical form, and is read back at its own address alone. -/
theorem memoryReadAfterWrite : Obligations.MemoryReadAfterWrite := by
  refine fun m a b v hm => ⟨Memory.write_wf hm a v, ?_⟩
  split
  · next hab => rw [hab, Memory.read_write_same hm]
  · next hab => exact Memory.read_write_other m hab v

/-- Settles O35, by induction on the cells: each head's address is at most the other's, so the heads agree, and the tails read
the same, both 0 at the head's address. -/
theorem canonicalMemoriesAreEqual : Obligations.CanonicalMemoriesAreEqual := by
  intro m
  induction m with
  | nil =>
    rintro (_ | ⟨⟨b, v⟩, n⟩) - hn h
    · rfl
    · obtain ⟨hv, -⟩ := Memory.wf_cons.mp hn
      exact absurd (h b).symm (by rwa [Memory.read_cons_same])
  | cons c m ih =>
    obtain ⟨a, w⟩ := c
    rintro (_ | ⟨⟨b, v⟩, n⟩) hm hn h
    · obtain ⟨hw, -⟩ := Memory.wf_cons.mp hm
      exact absurd (h a) (by rwa [Memory.read_cons_same])
    · obtain ⟨hw, hma, hm'⟩ := Memory.wf_cons.mp hm
      obtain ⟨hv, hnb, hn'⟩ := Memory.wf_cons.mp hn
      obtain rfl : a = b := Nat.le_antisymm
        (Memory.head_le_of_read_ne_zero hm (by rwa [h, Memory.read_cons_same]))
        (Memory.head_le_of_read_ne_zero hn (by rwa [← h, Memory.read_cons_same]))
      obtain rfl : w = v := by simpa only [Memory.read_cons_same] using h a
      refine congrArg _ (ih n hm' hn' fun x => ?_)
      by_cases hx : x = a
      · rw [hx, Memory.read_of_below hma, Memory.read_of_below hnb]
      · simpa only [Memory.read_cons_of_ne hx] using h x

end Sys2Proof.Machine
end

section
/-! PROOF. Obligations O11 and O13: what the launch scan reports and how a launch goes on, and the reset state of the empty
image (spec `70_reset_and_hazards.md` rules R114, R115). -/

namespace Sys2Proof.Machine

theorem illegalRWord_iff {w : Word} : illegalRWord w = true ↔ opcodeOf w = 0 ∧ supported w = false := by
  simp [illegalRWord]

/-- The scan reports the lowest index of an illegal opcode-0 word (decision D11). -/
theorem State.launchScan_eq_some {s : State} {i : Nat} (heager : s.config.eagerRValidation = true) (hi : i < s.nI)
    (hbad : illegalRWord (s.imem i) = true) (hlowest : ∀ k, k < i → ¬ illegalRWord (s.imem k) = true) :
    s.launchScan = some i := by
  rw [State.launchScan, if_pos heager, State.firstIllegalR, List.find?_range_eq_some]
  exact ⟨hbad, List.mem_range.mpr hi, fun k hk => by simpa using hlowest k hk⟩

theorem State.launchScan_eq_none {s : State}
    (h : s.config.eagerRValidation = false ∨ ∀ k, k < s.nI → ¬ illegalRWord (s.imem k) = true) :
    s.launchScan = none := by
  rcases h with hlazy | hlegal
  · rw [State.launchScan, hlazy, if_neg Bool.false_ne_true]
  · rw [State.launchScan, State.firstIllegalR, List.find?_range_eq_none.mpr fun k hk => by simpa using hlegal k hk,
      ite_self]

theorem State.launchChecks_of_scan_some {s : State} {i : Nat} (h : s.launchScan = some i) :
    s.launchChecks = s.takeFault (.decodeError (s.imem i) i) := by
  simp only [State.launchChecks, h]

theorem State.launchChecks_of_scan_none {s : State} (h : s.launchScan = none) :
    s.launchChecks = if s.nI ≤ s.pc then s.haltNormal else s := by
  simp only [State.launchChecks, h]

/-- A well-formed image's launch makes the launch checks on the reset state. -/
theorem launch_of_wellFormed {img : ProgramImage} (h : img.wellFormed = true) (cfg : Config) (inp : List Word) :
    launch cfg img inp = .next (resetState cfg img inp).launchChecks := by
  obtain ⟨-, hl⟩ | ⟨hno, -⟩ := launch_cases cfg img inp
  · exact hl
  · simp [h] at hno

/-- Settles O11: the scan's report decides the launch; without one the pc of the reset state, 0, is past the program exactly
when the program is empty. -/
theorem launchScanThenEmptyProgram : Obligations.LaunchScanThenEmptyProgram := by
  intro cfg img inp hwf
  simp only [launch_of_wellFormed hwf, ← illegalRWord_iff]
  refine ⟨fun i heager hi hop hno hlowest => ?_, fun hclean => ?_⟩
  · have hbad := illegalRWord_iff.mpr ⟨hop, hno⟩
    rw [State.launchChecks_of_scan_some (State.launchScan_eq_some heager hi hbad hlowest)]
    rfl
  · rw [State.launchChecks_of_scan_none (State.launchScan_eq_none hclean)]
    have hpc : (resetState cfg img inp).pc = 0 := rfl
    simp only [hpc, Nat.le_zero]
    rfl

theorem reset_eq_resetState_empty : State.reset = resetState Config.default ProgramImage.empty [] := by decide

/-- Settles O13: the reset state is that of the empty image, which is well formed. -/
theorem resetMeetsInvariant : Obligations.ResetMeetsInvariant := by
  rw [Obligations.ResetMeetsInvariant, reset_eq_resetState_empty]
  exact resetState_inv Config.default ProgramImage.empty [] (by decide)

end Sys2Proof.Machine
end

section
/-! PROOF. Obligations O25 and O26: what a fault leaves and what it is raised by (spec `60_exceptions.md` rules R106, R107). -/

namespace Sys2Proof.Machine

/-! ## A fault is precise (R107) -/

/-- The end of a faulting step adds the header alone: no halt check, no snapshot. -/
theorem finishStep_takeFault (pc : Nat) (w : Word) (s : State) (f : RunFault) :
    finishStep pc w (s.takeFault f) = (s.takeFault f).emit { pc := pc, word := w, snapshot := none } := rfl

/-- A step that ends in a fault takes it, by validation or by the instruction, whose header is then emitted. -/
theorem step_fault {s t : State} {f : RunFault} (h : step s = .next t) (hf : t.runState = .haltedFault f) :
    t = s.takeFault f ∨ t = (s.takeFault f).emit { pc := s.pc, word := s.imem s.pc, snapshot := none } := by
  obtain ⟨hrun, ⟨-, rfl⟩ | ⟨-, -, rfl⟩ | ⟨i, -, -, -, rfl⟩ | ⟨i, u, -, -, -, hu, rfl⟩⟩ := step_cases h
  · cases hf
  · cases hf
    exact .inl rfl
  · cases hrun.symm.trans hf
  · obtain ⟨-, rfl⟩ := exec_fault hu hrun (runState_of_finishStep_fault hf)
    exact .inr rfl

theorem launch_fault {cfg : Config} {img : ProgramImage} {inp : List Word} {t : State} {f : RunFault}
    (h : launch cfg img inp = .next t) (hf : t.runState = .haltedFault f) : t = (resetState cfg img inp).takeFault f := by
  obtain ⟨-, rfl⟩ := launch_next h
  obtain ⟨g, e⟩ | e | e := (resetState cfg img inp).launchChecks_cases <;> rw [e] at hf ⊢ <;> cases hf
  rfl

theorem State.diagnostic_of_fault {s : State} {f : RunFault} (h : s.runState = .haltedFault f) : s.diagnostic = some f := by
  simp only [State.diagnostic, h]

/-- Settles O25: taking a fault changes the run state alone, the header the trace alone, and a halted machine has no step. -/
theorem faultsArePrecise : Obligations.FaultsArePrecise := by
  refine ⟨fun s t f h hf => ?_, fun cfg img inp t f h hf => launch_fault h hf⟩
  have hstop : step t = .fault .noStepWhenHalted := (stepIsDefinedExactlyWhileRunning t).2 (by simp [hf])
  have hdiag := State.diagnostic_of_fault hf
  obtain rfl | rfl := step_fault h hf
  · exact ⟨rfl, .inl rfl, hdiag, hstop⟩
  · exact ⟨rfl, .inr rfl, hdiag, hstop⟩

/-! ## Which instruction raises which fault (R106) -/

section
variable {s t : State} {f : RunFault} (hs : s.runState = .running) (ht : t.runState = .haltedFault f)
include hs

/-- A transfer's fault records its target, with the region the target is in (R89). -/
theorem State.transfer_fault {a : Int} (hf : (s.transfer a).runState = .haltedFault f) :
    (f = .controlFlowFault a .inData ∧ (s.nI : Int) ≤ a ∧ a < (s.nI : Int) + s.nW) ∨
    (f = .controlFlowFault a .illegal ∧ (a < 0 ∨ (s.nI : Int) + s.nW ≤ a)) := by
  obtain ⟨-, -, e⟩ | ⟨hlow, hhigh, e⟩ | ⟨hout, e⟩ := s.transfer_cases a <;> rw [e] at hf
  · simp [hs] at hf
  · cases hf
    exact .inl ⟨rfl, hlow, hhigh⟩
  · cases hf
    exact .inr ⟨rfl, hout⟩

include ht

theorem exec_div_fault {rs rt : RegField} (h : exec (.div rs rt) s = .next t) : f = .arithmeticFault ∧
    (S (s.readField rt) = 0 ∨
      (s.config.divOverflow = .fault ∧ S (s.readField rs) = -(2 ^ 31) ∧ S (s.readField rt) = -1)) := by
  by_cases hd : s.divFaults (S (s.readField rs)) (S (s.readField rt)) = true
  · cases (raisesFault_of_div hd).symm.trans h
    cases ht
    exact ⟨rfl, (State.divFaults_iff.mp hd).imp_right And.symm⟩
  · obtain ⟨u, hu, -, -, -, -, -, -, -, -, hrun, -⟩ := writesHiLo_of_div hd
    cases hu.symm.trans h
    simp [hrun, hs] at ht

theorem exec_beq_fault {rs rt : RegField} {imm : ImmField} (h : exec (.beq rs rt imm) s = .next t) :
    s.readField rs = s.readField rt ∧ (s.transfer ((s.pc : Int) + imm.toInt)).runState = .haltedFault f := by
  by_cases heq : s.readField rs = s.readField rt
  · cases (exec_beq_of_eq imm heq).symm.trans h
    exact ⟨heq, ht⟩
  · cases (exec_beq_of_ne imm heq).symm.trans h
    simp [hs] at ht

theorem exec_bne_fault {rs rt : RegField} {imm : ImmField} (h : exec (.bne rs rt imm) s = .next t) :
    s.readField rs ≠ s.readField rt ∧ (s.transfer ((s.pc : Int) + imm.toInt)).runState = .haltedFault f := by
  by_cases heq : s.readField rs = s.readField rt
  · cases (exec_bne_of_eq imm heq).symm.trans h
    simp [hs] at ht
  · cases (exec_bne_of_ne imm heq).symm.trans h
    exact ⟨heq, ht⟩

/-- A load's or store's fault records its effective address, which is outside the data region (R95, R96). -/
theorem exec_memory_fault {i : Instr} {rt rs : RegField} {imm : ImmField} (hi : i = .lw rt rs imm ∨ i = .sw rt rs imm)
    (h : exec i s = .next t) : f = .memoryFault (s.effectiveAddress rs imm) ∧
      ¬ ((s.nI : Int) ≤ s.effectiveAddress rs imm ∧ s.effectiveAddress rs imm < (s.nI : Int) + s.nW) := by
  by_cases hin : (s.nI : Int) ≤ s.effectiveAddress rs imm ∧ s.effectiveAddress rs imm < (s.nI : Int) + s.nW
  · obtain ⟨u, hu, -, hrun⟩ : ∃ u, exec i s = .next u ∧ u.pc = s.pc + 1 ∧ u.runState = s.runState := by
      rcases hi with rfl | rfl
      · exact lw_completes hin.1 hin.2
      · exact sw_completes hin.1 hin.2
    cases hu.symm.trans h
    simp [hrun, hs] at ht
  · have hfault : RaisesFault i s (.memoryFault (s.effectiveAddress rs imm)) := by
      rcases hi with rfl | rfl
      · exact raisesFault_of_lw (by omega)
      · exact raisesFault_of_sw (by omega)
    cases hfault.symm.trans h
    cases ht
    exact ⟨rfl, hin⟩

end

theorem readInteger_runState (s : State) : (readInteger s).runState = s.runState := by
  unfold readInteger
  split <;> simp

/-- No service of `syscall` faults: service 10 ends the run normally, and no other changes the run state. -/
theorem exec_syscall_runState {s t : State} (h : exec .syscall s = .next t) :
    t.runState = s.runState ∨ t.runState = .haltedNormal := by
  by_cases h1 : s.service = 1
  · cases (exec_syscall_of_print h1).symm.trans h
    exact .inl rfl
  by_cases h5 : s.service = 5
  · cases (exec_syscall_of_read h5).symm.trans h
    exact .inl (readInteger_runState s)
  by_cases h10 : s.service = 10
  · cases (exec_syscall_of_exit h10).symm.trans h
    exact .inr rfl
  · cases (exec_syscall_of_no_service h1 h5 h10).symm.trans h
    exact .inl rfl

/-- Settles O26: `div`, the three transfers and the two memory accesses each by its own rule; the others leave the run state
or end the run normally. -/
theorem faultCausesByInstruction : Obligations.FaultCausesByInstruction := by
  intro i s t f hs h ht
  cases i with
  | div rs rt =>
    obtain ⟨hf, hcause⟩ := exec_div_fault hs ht h
    exact .inl ⟨rs, rt, rfl, hf, hcause⟩
  | beq rs rt imm =>
    obtain ⟨heq, hf⟩ := exec_beq_fault hs ht h
    exact .inr (.inl ⟨_, .inl ⟨rs, rt, imm, .inl ⟨rfl, heq⟩, rfl⟩, State.transfer_fault hs hf⟩)
  | bne rs rt imm =>
    obtain ⟨hne, hf⟩ := exec_bne_fault hs ht h
    exact .inr (.inl ⟨_, .inl ⟨rs, rt, imm, .inr ⟨rfl, hne⟩, rfl⟩, State.transfer_fault hs hf⟩)
  | j a =>
    cases (exec_j a s).symm.trans h
    exact .inr (.inl ⟨_, .inr ⟨a, rfl, rfl⟩, State.transfer_fault hs ht⟩)
  | lw rt rs imm => exact .inr (.inr ⟨rt, rs, imm, .inl rfl, exec_memory_fault hs ht (.inl rfl) h⟩)
  | sw rt rs imm => exact .inr (.inr ⟨rt, rs, imm, .inr rfl, exec_memory_fault hs ht (.inr rfl) h⟩)
  | syscall =>
    have hrun := exec_syscall_runState h
    simp [hs, ht] at hrun
  | addu | and | or | slt | subu | addiu | mfhi | mflo | mult =>
    cases h
    simp [hs] at ht

end Sys2Proof.Machine
end
